-- ==== Sys2Proof/Word.lean ====
section
/-! DEFINITION. The two widths of the core (spec/00_scope.md section 5, R3): a byte is 8 bits, a word is 16 bits.
Everything computed on them (joining bytes, extension) stands in Machine/Bits.lean. -/

namespace Sys2Proof

/-- An 8-bit value: a memory byte, A, X, Y, SP or P (R3). -/
abbrev Byte := BitVec 8

/-- A 16-bit value: an address or the program counter (R3). -/
abbrev Word := BitVec 16

end Sys2Proof
end

