-- ==== Sys2Proof/Machine/Bits.lean ====
section
/-! DEFINITION. The bit-field, byte-order and extension helpers (spec/00_scope.md section 5; R34, R35, R37, R55). -/

namespace Sys2Proof

/-- `{hi, lo}`: the word whose bits 15:8 are `hi` and bits 7:0 are `lo` (R34, R35). -/
def joinBytes (hi lo : Byte) : Word := hi ++ lo

/-- `w[7:0]`. -/
def loByte (w : Word) : Byte := w.extractLsb' 0 8

/-- `w[15:8]`. -/
def hiByte (w : Word) : Byte := w.extractLsb' 8 8

/-- `zext_16(b)`: the byte widened with zeros. -/
def zext16 (b : Byte) : Word := b.setWidth 16

/-- `sext_16(b)`: the byte read as a two's-complement number and widened (R55). -/
def sext16 (b : Byte) : Word := b.signExtend 16

end Sys2Proof
end

