-- ==== Sys2Proof/Syntax.lean ====
section
/-! DEFINITION. The instructions as data: one constructor of `Instr` per mnemonic of spec/opcode_table.json (its rows of
one mnemonic differ only in the addressing mode, which is the constructor's operand), and `invalid` for the table's
`(invalid)` rows. Which mnemonic admits which mode is WellFormed.lean's; the bytes are Decode.lean's. -/

namespace Sys2Proof

/-- The closed set of thirteen mode tags (R51). -/
inductive Mode where
  | implicit
  | immediate
  | absolute
  | zeroPage
  | zeroPageIndexedX
  | zeroPageIndexedY
  | preIndexedIndirect
  | postIndexedIndirect
  | absoluteIndexedX
  | absoluteIndexedY
  | indirect
  | relative
  | invalid
  deriving DecidableEq, Repr

/-- An operand in memory: the eight modes whose effective address is the address of a data byte (R53, R54, R75). -/
inductive MemOperand where
  /-- ZeroPage `$xx` -/
  | zp (b : Byte)
  /-- ZeroPageIndexedX `$xx, X` -/
  | zpx (b : Byte)
  /-- ZeroPageIndexedY `$xx, Y` -/
  | zpy (b : Byte)
  /-- Absolute `$xxxx` -/
  | abs (w : Word)
  /-- AbsoluteIndexedX `$xxxx, X` -/
  | abx (w : Word)
  /-- AbsoluteIndexedY `$xxxx, Y` -/
  | aby (w : Word)
  /-- PreIndexedIndirect `($xx, X)` -/
  | izx (b : Byte)
  /-- PostIndexedIndirect `($xx), Y` -/
  | izy (b : Byte)
  deriving DecidableEq, Repr

/-- The operand of an instruction that only reads it: Immediate `#$xx`, or a memory operand (R77, R94). -/
inductive ReadOperand where
  | imm (v : Byte)
  | mem (m : MemOperand)
  deriving DecidableEq, Repr

/-- The operand of `asl`, `lsr`, `rol`, `ror`: A in Implicit mode, or a memory operand (R76, R140). -/
inductive ShiftOperand where
  | acc
  | mem (m : MemOperand)
  deriving DecidableEq, Repr

/-- The operand of `jmp`: Absolute `$xxxx` or Indirect `($xxxx)` (R85, R86, R161). -/
inductive JumpOperand where
  | abs (w : Word)
  | ind (w : Word)
  deriving DecidableEq, Repr

/-- The instruction set: the 56 mnemonics of R57 in its order, then the decode failure of an Invalid byte (R59). -/
inductive Instr where
  | adc (o : ReadOperand)
  | and (o : ReadOperand)
  | asl (o : ShiftOperand)
  | bcc (off : Byte)
  | bcs (off : Byte)
  | beq (off : Byte)
  | bit (m : MemOperand)
  | bmi (off : Byte)
  | bne (off : Byte)
  | bpl (off : Byte)
  | brk
  | bvc (off : Byte)
  | bvs (off : Byte)
  | clc
  | cld
  | cli
  | clv
  | cmp (o : ReadOperand)
  | cpx (o : ReadOperand)
  | cpy (o : ReadOperand)
  | dec (m : MemOperand)
  | dex
  | dey
  | eor (o : ReadOperand)
  | inc (m : MemOperand)
  | inx
  | iny
  | jmp (t : JumpOperand)
  | jsr (target : Word)
  | lda (o : ReadOperand)
  | ldx (o : ReadOperand)
  | ldy (o : ReadOperand)
  | lsr (o : ShiftOperand)
  | nop
  | ora (o : ReadOperand)
  | pha
  | php
  | pla
  | plp
  | rol (o : ShiftOperand)
  | ror (o : ShiftOperand)
  | rti
  | rts
  | sbc (o : ReadOperand)
  | sec
  | sed
  | sei
  | sta (m : MemOperand)
  | stx (m : MemOperand)
  | sty (m : MemOperand)
  | tax
  | tay
  | tsx
  | txa
  | txs
  | tya
  /-- An opcode byte with the tag Invalid (R59): executing it is the decode failure (R200). -/
  | invalid (op : Byte)
  deriving DecidableEq, Repr

end Sys2Proof
end

