-- ==== Sys2Proof/WellFormed.lean ====
section
/-! DEFINITION. Which instructions exist: the (mnemonic, mode) pairs of R57's table, and for `invalid` the 105 bytes
listed in R59. Every operand VALUE of an existing pair is legal (R59, last sentence). What `exec` does with a pair that
does not exist is log entry 14 (DESIGN CHOICE, safe). -/

namespace Sys2Proof

/-- zp zpx abs abx aby izx izy: the memory columns of `adc and cmp eor lda ora sbc sta` in R57. -/
def MemOperand.isAccForm : MemOperand → Bool
  | .zp _ => true
  | .zpx _ => true
  | .zpy _ => false
  | .abs _ => true
  | .abx _ => true
  | .aby _ => true
  | .izx _ => true
  | .izy _ => true

/-- zp zpx abs abx: the memory columns of `asl lsr rol ror inc dec ldy` in R57. -/
def MemOperand.isXForm : MemOperand → Bool
  | .zp _ => true
  | .zpx _ => true
  | .zpy _ => false
  | .abs _ => true
  | .abx _ => true
  | .aby _ => false
  | .izx _ => false
  | .izy _ => false

/-- zp zpy abs aby: the memory columns of `ldx` in R57. -/
def MemOperand.isYForm : MemOperand → Bool
  | .zp _ => true
  | .zpx _ => false
  | .zpy _ => true
  | .abs _ => true
  | .abx _ => false
  | .aby _ => true
  | .izx _ => false
  | .izy _ => false

/-- zp zpy abs: the columns of `stx` in R57. -/
def MemOperand.isStxForm : MemOperand → Bool
  | .zp _ => true
  | .zpx _ => false
  | .zpy _ => true
  | .abs _ => true
  | .abx _ => false
  | .aby _ => false
  | .izx _ => false
  | .izy _ => false

/-- zp zpx abs: the columns of `sty` in R57. -/
def MemOperand.isStyForm : MemOperand → Bool
  | .zp _ => true
  | .zpx _ => true
  | .zpy _ => false
  | .abs _ => true
  | .abx _ => false
  | .aby _ => false
  | .izx _ => false
  | .izy _ => false

/-- zp abs: the memory columns of `bit cpx cpy` in R57. -/
def MemOperand.isPlainForm : MemOperand → Bool
  | .zp _ => true
  | .zpx _ => false
  | .zpy _ => false
  | .abs _ => true
  | .abx _ => false
  | .aby _ => false
  | .izx _ => false
  | .izy _ => false

/-- Immediate, or a memory operand that passes the check. -/
def ReadOperand.admits (ok : MemOperand → Bool) : ReadOperand → Bool
  | .imm _ => true
  | .mem m => ok m

/-- The accumulator, or a memory operand with one of the four columns of the shifts. -/
def ShiftOperand.isForm : ShiftOperand → Bool
  | .acc => true
  | .mem m => m.isXForm

/-- The 105 unassigned opcode bytes, in the order R59 lists them. -/
def invalidBytes : List Byte :=
  [0x02, 0x03, 0x04, 0x07, 0x0B, 0x0C, 0x0F, 0x12, 0x13, 0x14, 0x17, 0x1A, 0x1B, 0x1C, 0x1F] ++
  [0x22, 0x23, 0x27, 0x2B, 0x2F, 0x32, 0x33, 0x34, 0x37, 0x3A, 0x3B, 0x3C, 0x3F, 0x42, 0x43] ++
  [0x44, 0x47, 0x4B, 0x4F, 0x52, 0x53, 0x54, 0x57, 0x5A, 0x5B, 0x5C, 0x5F, 0x62, 0x63, 0x64] ++
  [0x67, 0x6B, 0x6F, 0x72, 0x73, 0x74, 0x77, 0x7A, 0x7B, 0x7C, 0x7F, 0x80, 0x82, 0x83, 0x87] ++
  [0x89, 0x8B, 0x8F, 0x92, 0x93, 0x97, 0x9B, 0x9C, 0x9E, 0x9F, 0xA3, 0xA7, 0xAB, 0xAF, 0xB2] ++
  [0xB3, 0xB7, 0xBB, 0xBF, 0xC2, 0xC3, 0xC7, 0xCB, 0xCF, 0xD2, 0xD3, 0xD4, 0xD7, 0xDA, 0xDB] ++
  [0xDC, 0xDF, 0xE2, 0xE3, 0xE7, 0xEB, 0xEF, 0xF2, 0xF3, 0xF4, 0xF7, 0xFA, 0xFB, 0xFC, 0xFF]

/-- The instruction exists: its (mnemonic, mode) pair has an opcode in R57, or its byte is Invalid by R59. -/
def Instr.wellFormed : Instr → Bool
  | .adc o => o.admits MemOperand.isAccForm
  | .and o => o.admits MemOperand.isAccForm
  | .asl o => o.isForm
  | .bcc _ => true
  | .bcs _ => true
  | .beq _ => true
  | .bit m => m.isPlainForm
  | .bmi _ => true
  | .bne _ => true
  | .bpl _ => true
  | .brk => true
  | .bvc _ => true
  | .bvs _ => true
  | .clc => true
  | .cld => true
  | .cli => true
  | .clv => true
  | .cmp o => o.admits MemOperand.isAccForm
  | .cpx o => o.admits MemOperand.isPlainForm
  | .cpy o => o.admits MemOperand.isPlainForm
  | .dec m => m.isXForm
  | .dex => true
  | .dey => true
  | .eor o => o.admits MemOperand.isAccForm
  | .inc m => m.isXForm
  | .inx => true
  | .iny => true
  | .jmp _ => true
  | .jsr _ => true
  | .lda o => o.admits MemOperand.isAccForm
  | .ldx o => o.admits MemOperand.isYForm
  | .ldy o => o.admits MemOperand.isXForm
  | .lsr o => o.isForm
  | .nop => true
  | .ora o => o.admits MemOperand.isAccForm
  | .pha => true
  | .php => true
  | .pla => true
  | .plp => true
  | .rol o => o.isForm
  | .ror o => o.isForm
  | .rti => true
  | .rts => true
  | .sbc o => o.admits MemOperand.isAccForm
  | .sec => true
  | .sed => true
  | .sei => true
  | .sta m => m.isAccForm
  | .stx m => m.isStxForm
  | .sty m => m.isStyForm
  | .tax => true
  | .tay => true
  | .tsx => true
  | .txa => true
  | .txs => true
  | .tya => true
  | .invalid op => decide (op ∈ invalidBytes)

end Sys2Proof
end

