-- ==== Sys2Proof/Decode.lean ====
section
/-! DEFINITION. Decoding and encoding: lengths (R52), the decoder (R50, R56, written from the matrix of R58), and after
it the encoder (written from the table of R57, apart from the decoder). `decodeBytes` is the instruction table `ITAB`
together with the operand assembly of R53 to R55; it is total, and a byte the table leaves unassigned is the instruction
`invalid` (R59), the decode failure by name. -/

namespace Sys2Proof

/-- `Len(mode)`: the instruction length in bytes with the opcode, a function of the mode only (R52). -/
def Mode.len : Mode → Nat
  | .implicit => 1
  | .immediate => 2
  | .zeroPage => 2
  | .zeroPageIndexedX => 2
  | .zeroPageIndexedY => 2
  | .preIndexedIndirect => 2
  | .postIndexedIndirect => 2
  | .relative => 2
  | .absolute => 3
  | .absoluteIndexedX => 3
  | .absoluteIndexedY => 3
  | .indirect => 3
  | .invalid => 1

/-- The tag of a memory operand (R51). -/
def MemOperand.mode : MemOperand → Mode
  | .zp _ => .zeroPage
  | .zpx _ => .zeroPageIndexedX
  | .zpy _ => .zeroPageIndexedY
  | .abs _ => .absolute
  | .abx _ => .absoluteIndexedX
  | .aby _ => .absoluteIndexedY
  | .izx _ => .preIndexedIndirect
  | .izy _ => .postIndexedIndirect

/-- The tag of a read operand (R51). -/
def ReadOperand.mode : ReadOperand → Mode
  | .imm _ => .immediate
  | .mem m => m.mode

/-- The tag of a shift's operand; the accumulator form is Implicit (R76, R140). -/
def ShiftOperand.mode : ShiftOperand → Mode
  | .acc => .implicit
  | .mem m => m.mode

/-- The tag of a jump's operand (R51). -/
def JumpOperand.mode : JumpOperand → Mode
  | .abs _ => .absolute
  | .ind _ => .indirect

/-- The mode tag of an instruction (R51, R56). -/
def Instr.mode : Instr → Mode
  | .adc o => o.mode
  | .and o => o.mode
  | .asl o => o.mode
  | .bcc _ => .relative
  | .bcs _ => .relative
  | .beq _ => .relative
  | .bit m => m.mode
  | .bmi _ => .relative
  | .bne _ => .relative
  | .bpl _ => .relative
  | .brk => .implicit
  | .bvc _ => .relative
  | .bvs _ => .relative
  | .clc => .implicit
  | .cld => .implicit
  | .cli => .implicit
  | .clv => .implicit
  | .cmp o => o.mode
  | .cpx o => o.mode
  | .cpy o => o.mode
  | .dec m => m.mode
  | .dex => .implicit
  | .dey => .implicit
  | .eor o => o.mode
  | .inc m => m.mode
  | .inx => .implicit
  | .iny => .implicit
  | .jmp t => t.mode
  | .jsr _ => .absolute
  | .lda o => o.mode
  | .ldx o => o.mode
  | .ldy o => o.mode
  | .lsr o => o.mode
  | .nop => .implicit
  | .ora o => o.mode
  | .pha => .implicit
  | .php => .implicit
  | .pla => .implicit
  | .plp => .implicit
  | .rol o => o.mode
  | .ror o => o.mode
  | .rti => .implicit
  | .rts => .implicit
  | .sbc o => o.mode
  | .sec => .implicit
  | .sed => .implicit
  | .sei => .implicit
  | .sta m => m.mode
  | .stx m => m.mode
  | .sty m => m.mode
  | .tax => .implicit
  | .tay => .implicit
  | .tsx => .implicit
  | .txa => .implicit
  | .txs => .implicit
  | .tya => .implicit
  | .invalid _ => .invalid

/-- The length of an instruction in bytes (R52). -/
def Instr.len (i : Instr) : Nat := i.mode.len

/-- The instruction table with the operands put in: `op` is byte 0, `b1` and `b2` are the bytes after it (R50, R53, R54,
R55). One row per assigned byte of R58; every other byte has the tag Invalid (R59). An F1 instruction looks at neither
`b1` nor `b2`, an F2 instruction not at `b2`. The assignments are the parameter `ITAB` at its default (D1; log entry 6,
UNVERIFIED, unsafe). -/
def decodeBytes (op b1 b2 : Byte) : Instr :=
  match op with
  | 0x00 => .brk
  | 0x01 => .ora (.mem (.izx b1))
  | 0x05 => .ora (.mem (.zp b1))
  | 0x06 => .asl (.mem (.zp b1))
  | 0x08 => .php
  | 0x09 => .ora (.imm b1)
  | 0x0A => .asl .acc
  | 0x0D => .ora (.mem (.abs (joinBytes b2 b1)))
  | 0x0E => .asl (.mem (.abs (joinBytes b2 b1)))
  | 0x10 => .bpl b1
  | 0x11 => .ora (.mem (.izy b1))
  | 0x15 => .ora (.mem (.zpx b1))
  | 0x16 => .asl (.mem (.zpx b1))
  | 0x18 => .clc
  | 0x19 => .ora (.mem (.aby (joinBytes b2 b1)))
  | 0x1D => .ora (.mem (.abx (joinBytes b2 b1)))
  | 0x1E => .asl (.mem (.abx (joinBytes b2 b1)))
  | 0x20 => .jsr (joinBytes b2 b1)
  | 0x21 => .and (.mem (.izx b1))
  | 0x24 => .bit (.zp b1)
  | 0x25 => .and (.mem (.zp b1))
  | 0x26 => .rol (.mem (.zp b1))
  | 0x28 => .plp
  | 0x29 => .and (.imm b1)
  | 0x2A => .rol .acc
  | 0x2C => .bit (.abs (joinBytes b2 b1))
  | 0x2D => .and (.mem (.abs (joinBytes b2 b1)))
  | 0x2E => .rol (.mem (.abs (joinBytes b2 b1)))
  | 0x30 => .bmi b1
  | 0x31 => .and (.mem (.izy b1))
  | 0x35 => .and (.mem (.zpx b1))
  | 0x36 => .rol (.mem (.zpx b1))
  | 0x38 => .sec
  | 0x39 => .and (.mem (.aby (joinBytes b2 b1)))
  | 0x3D => .and (.mem (.abx (joinBytes b2 b1)))
  | 0x3E => .rol (.mem (.abx (joinBytes b2 b1)))
  | 0x40 => .rti
  | 0x41 => .eor (.mem (.izx b1))
  | 0x45 => .eor (.mem (.zp b1))
  | 0x46 => .lsr (.mem (.zp b1))
  | 0x48 => .pha
  | 0x49 => .eor (.imm b1)
  | 0x4A => .lsr .acc
  | 0x4C => .jmp (.abs (joinBytes b2 b1))
  | 0x4D => .eor (.mem (.abs (joinBytes b2 b1)))
  | 0x4E => .lsr (.mem (.abs (joinBytes b2 b1)))
  | 0x50 => .bvc b1
  | 0x51 => .eor (.mem (.izy b1))
  | 0x55 => .eor (.mem (.zpx b1))
  | 0x56 => .lsr (.mem (.zpx b1))
  | 0x58 => .cli
  | 0x59 => .eor (.mem (.aby (joinBytes b2 b1)))
  | 0x5D => .eor (.mem (.abx (joinBytes b2 b1)))
  | 0x5E => .lsr (.mem (.abx (joinBytes b2 b1)))
  | 0x60 => .rts
  | 0x61 => .adc (.mem (.izx b1))
  | 0x65 => .adc (.mem (.zp b1))
  | 0x66 => .ror (.mem (.zp b1))
  | 0x68 => .pla
  | 0x69 => .adc (.imm b1)
  | 0x6A => .ror .acc
  | 0x6C => .jmp (.ind (joinBytes b2 b1))
  | 0x6D => .adc (.mem (.abs (joinBytes b2 b1)))
  | 0x6E => .ror (.mem (.abs (joinBytes b2 b1)))
  | 0x70 => .bvs b1
  | 0x71 => .adc (.mem (.izy b1))
  | 0x75 => .adc (.mem (.zpx b1))
  | 0x76 => .ror (.mem (.zpx b1))
  | 0x78 => .sei
  | 0x79 => .adc (.mem (.aby (joinBytes b2 b1)))
  | 0x7D => .adc (.mem (.abx (joinBytes b2 b1)))
  | 0x7E => .ror (.mem (.abx (joinBytes b2 b1)))
  | 0x81 => .sta (.izx b1)
  | 0x84 => .sty (.zp b1)
  | 0x85 => .sta (.zp b1)
  | 0x86 => .stx (.zp b1)
  | 0x88 => .dey
  | 0x8A => .txa
  | 0x8C => .sty (.abs (joinBytes b2 b1))
  | 0x8D => .sta (.abs (joinBytes b2 b1))
  | 0x8E => .stx (.abs (joinBytes b2 b1))
  | 0x90 => .bcc b1
  | 0x91 => .sta (.izy b1)
  | 0x94 => .sty (.zpx b1)
  | 0x95 => .sta (.zpx b1)
  | 0x96 => .stx (.zpy b1)
  | 0x98 => .tya
  | 0x99 => .sta (.aby (joinBytes b2 b1))
  | 0x9A => .txs
  | 0x9D => .sta (.abx (joinBytes b2 b1))
  | 0xA0 => .ldy (.imm b1)
  | 0xA1 => .lda (.mem (.izx b1))
  | 0xA2 => .ldx (.imm b1)
  | 0xA4 => .ldy (.mem (.zp b1))
  | 0xA5 => .lda (.mem (.zp b1))
  | 0xA6 => .ldx (.mem (.zp b1))
  | 0xA8 => .tay
  | 0xA9 => .lda (.imm b1)
  | 0xAA => .tax
  | 0xAC => .ldy (.mem (.abs (joinBytes b2 b1)))
  | 0xAD => .lda (.mem (.abs (joinBytes b2 b1)))
  | 0xAE => .ldx (.mem (.abs (joinBytes b2 b1)))
  | 0xB0 => .bcs b1
  | 0xB1 => .lda (.mem (.izy b1))
  | 0xB4 => .ldy (.mem (.zpx b1))
  | 0xB5 => .lda (.mem (.zpx b1))
  | 0xB6 => .ldx (.mem (.zpy b1))
  | 0xB8 => .clv
  | 0xB9 => .lda (.mem (.aby (joinBytes b2 b1)))
  | 0xBA => .tsx
  | 0xBC => .ldy (.mem (.abx (joinBytes b2 b1)))
  | 0xBD => .lda (.mem (.abx (joinBytes b2 b1)))
  | 0xBE => .ldx (.mem (.aby (joinBytes b2 b1)))
  | 0xC0 => .cpy (.imm b1)
  | 0xC1 => .cmp (.mem (.izx b1))
  | 0xC4 => .cpy (.mem (.zp b1))
  | 0xC5 => .cmp (.mem (.zp b1))
  | 0xC6 => .dec (.zp b1)
  | 0xC8 => .iny
  | 0xC9 => .cmp (.imm b1)
  | 0xCA => .dex
  | 0xCC => .cpy (.mem (.abs (joinBytes b2 b1)))
  | 0xCD => .cmp (.mem (.abs (joinBytes b2 b1)))
  | 0xCE => .dec (.abs (joinBytes b2 b1))
  | 0xD0 => .bne b1
  | 0xD1 => .cmp (.mem (.izy b1))
  | 0xD5 => .cmp (.mem (.zpx b1))
  | 0xD6 => .dec (.zpx b1)
  | 0xD8 => .cld
  | 0xD9 => .cmp (.mem (.aby (joinBytes b2 b1)))
  | 0xDD => .cmp (.mem (.abx (joinBytes b2 b1)))
  | 0xDE => .dec (.abx (joinBytes b2 b1))
  | 0xE0 => .cpx (.imm b1)
  | 0xE1 => .sbc (.mem (.izx b1))
  | 0xE4 => .cpx (.mem (.zp b1))
  | 0xE5 => .sbc (.mem (.zp b1))
  | 0xE6 => .inc (.zp b1)
  | 0xE8 => .inx
  | 0xE9 => .sbc (.imm b1)
  | 0xEA => .nop
  | 0xEC => .cpx (.mem (.abs (joinBytes b2 b1)))
  | 0xED => .sbc (.mem (.abs (joinBytes b2 b1)))
  | 0xEE => .inc (.abs (joinBytes b2 b1))
  | 0xF0 => .beq b1
  | 0xF1 => .sbc (.mem (.izy b1))
  | 0xF5 => .sbc (.mem (.zpx b1))
  | 0xF6 => .inc (.zpx b1)
  | 0xF8 => .sed
  | 0xF9 => .sbc (.mem (.aby (joinBytes b2 b1)))
  | 0xFD => .sbc (.mem (.abx (joinBytes b2 b1)))
  | 0xFE => .inc (.abx (joinBytes b2 b1))
  | _ => .invalid op

/-- The mode an opcode byte binds, from byte 0 alone (R52, R56). -/
def opcodeMode (op : Byte) : Mode := (decodeBytes op 0 0).mode

/-- `Len` of an opcode byte's mode (R52). -/
def opcodeLen (op : Byte) : Nat := (opcodeMode op).len

/-- What the decoder answers on a list of bytes. -/
inductive Decoded where
  /-- The instruction the list begins with, and the bytes after it. -/
  | instr (i : Instr) (rest : List Byte)
  /-- The list ends before the last byte of the instruction with this opcode. -/
  | truncated (op : Byte)
  /-- The list is empty. -/
  | noBytes
  deriving DecidableEq, Repr

/-- Decoding any list of bytes, the opcode first, in ascending address order (R34, R50). -/
def decode : List Byte → Decoded
  | [] => .noBytes
  | op :: rest =>
    if rest.length + 1 < opcodeLen op then .truncated op
    else .instr (decodeBytes op (rest.getD 0 0) (rest.getD 1 0)) (rest.drop (opcodeLen op - 1))

/-- The instruction read from the bits `w` of a row of spec/opcode_table.json: bit 0 is the least significant bit of
the opcode byte, the operand bytes count on from it, and every bit from `nbits` up is 0. -/
def decodeTableWord (nbits w : Nat) : Option Instr :=
  let v := w % 2 ^ nbits
  match decode [BitVec.ofNat 8 v, BitVec.ofNat 8 (v / 256), BitVec.ofNat 8 (v / 65536)] with
  | .instr i _ => some i
  | .truncated _ => none
  | .noBytes => none

/-- The two operand bytes of a word, low byte first (R34, R54). -/
def wordBytes (w : Word) : List Byte := [loByte w, hiByte w]

/-- The operand bytes of a memory operand (R53, R54). -/
def MemOperand.bytes : MemOperand → List Byte
  | .zp b => [b]
  | .zpx b => [b]
  | .zpy b => [b]
  | .abs w => wordBytes w
  | .abx w => wordBytes w
  | .aby w => wordBytes w
  | .izx b => [b]
  | .izy b => [b]

/-- The operand bytes of a read operand (R53, R54). -/
def ReadOperand.bytes : ReadOperand → List Byte
  | .imm v => [v]
  | .mem m => m.bytes

/-- The operand bytes of a shift's operand. -/
def ShiftOperand.bytes : ShiftOperand → List Byte
  | .acc => []
  | .mem m => m.bytes

/-- The operand bytes of a jump's operand (R54). -/
def JumpOperand.bytes : JumpOperand → List Byte
  | .abs w => wordBytes w
  | .ind w => wordBytes w

/-- The bytes after the opcode (R50, R53, R54, R55). -/
def Instr.operandBytes : Instr → List Byte
  | .adc o => o.bytes
  | .and o => o.bytes
  | .asl o => o.bytes
  | .bcc off => [off]
  | .bcs off => [off]
  | .beq off => [off]
  | .bit m => m.bytes
  | .bmi off => [off]
  | .bne off => [off]
  | .bpl off => [off]
  | .brk => []
  | .bvc off => [off]
  | .bvs off => [off]
  | .clc => []
  | .cld => []
  | .cli => []
  | .clv => []
  | .cmp o => o.bytes
  | .cpx o => o.bytes
  | .cpy o => o.bytes
  | .dec m => m.bytes
  | .dex => []
  | .dey => []
  | .eor o => o.bytes
  | .inc m => m.bytes
  | .inx => []
  | .iny => []
  | .jmp t => t.bytes
  | .jsr w => wordBytes w
  | .lda o => o.bytes
  | .ldx o => o.bytes
  | .ldy o => o.bytes
  | .lsr o => o.bytes
  | .nop => []
  | .ora o => o.bytes
  | .pha => []
  | .php => []
  | .pla => []
  | .plp => []
  | .rol o => o.bytes
  | .ror o => o.bytes
  | .rti => []
  | .rts => []
  | .sbc o => o.bytes
  | .sec => []
  | .sed => []
  | .sei => []
  | .sta m => m.bytes
  | .stx m => m.bytes
  | .sty m => m.bytes
  | .tax => []
  | .tay => []
  | .tsx => []
  | .txa => []
  | .txs => []
  | .tya => []
  | .invalid _ => []

/-- The cell of one row of R57's table: its eight memory columns, and the one the operand's mode picks. -/
def MemOperand.opcodeAmong (zp zpx zpy abs abx aby izx izy : Option Byte) : MemOperand → Option Byte
  | .zp _ => zp
  | .zpx _ => zpx
  | .zpy _ => zpy
  | .abs _ => abs
  | .abx _ => abx
  | .aby _ => aby
  | .izx _ => izx
  | .izy _ => izy

/-- The opcode byte of an instruction: R57's table, a blank cell of it being `none`; the columns of a row are
zp zpx zpy abs abx aby izx izy. For `invalid` the byte itself, if R59 lists it. -/
def Instr.opcode : Instr → Option Byte
  | .adc (.imm _) => some 0x69
  | .adc (.mem m) => m.opcodeAmong (some 0x65) (some 0x75) none (some 0x6D) (some 0x7D) (some 0x79) (some 0x61) (some 0x71)
  | .and (.imm _) => some 0x29
  | .and (.mem m) => m.opcodeAmong (some 0x25) (some 0x35) none (some 0x2D) (some 0x3D) (some 0x39) (some 0x21) (some 0x31)
  | .asl .acc => some 0x0A
  | .asl (.mem m) => m.opcodeAmong (some 0x06) (some 0x16) none (some 0x0E) (some 0x1E) none none none
  | .bcc _ => some 0x90
  | .bcs _ => some 0xB0
  | .beq _ => some 0xF0
  | .bit m => m.opcodeAmong (some 0x24) none none (some 0x2C) none none none none
  | .bmi _ => some 0x30
  | .bne _ => some 0xD0
  | .bpl _ => some 0x10
  | .brk => some 0x00
  | .bvc _ => some 0x50
  | .bvs _ => some 0x70
  | .clc => some 0x18
  | .cld => some 0xD8
  | .cli => some 0x58
  | .clv => some 0xB8
  | .cmp (.imm _) => some 0xC9
  | .cmp (.mem m) => m.opcodeAmong (some 0xC5) (some 0xD5) none (some 0xCD) (some 0xDD) (some 0xD9) (some 0xC1) (some 0xD1)
  | .cpx (.imm _) => some 0xE0
  | .cpx (.mem m) => m.opcodeAmong (some 0xE4) none none (some 0xEC) none none none none
  | .cpy (.imm _) => some 0xC0
  | .cpy (.mem m) => m.opcodeAmong (some 0xC4) none none (some 0xCC) none none none none
  | .dec m => m.opcodeAmong (some 0xC6) (some 0xD6) none (some 0xCE) (some 0xDE) none none none
  | .dex => some 0xCA
  | .dey => some 0x88
  | .eor (.imm _) => some 0x49
  | .eor (.mem m) => m.opcodeAmong (some 0x45) (some 0x55) none (some 0x4D) (some 0x5D) (some 0x59) (some 0x41) (some 0x51)
  | .inc m => m.opcodeAmong (some 0xE6) (some 0xF6) none (some 0xEE) (some 0xFE) none none none
  | .inx => some 0xE8
  | .iny => some 0xC8
  | .jmp (.abs _) => some 0x4C
  | .jmp (.ind _) => some 0x6C
  | .jsr _ => some 0x20
  | .lda (.imm _) => some 0xA9
  | .lda (.mem m) => m.opcodeAmong (some 0xA5) (some 0xB5) none (some 0xAD) (some 0xBD) (some 0xB9) (some 0xA1) (some 0xB1)
  | .ldx (.imm _) => some 0xA2
  | .ldx (.mem m) => m.opcodeAmong (some 0xA6) none (some 0xB6) (some 0xAE) none (some 0xBE) none none
  | .ldy (.imm _) => some 0xA0
  | .ldy (.mem m) => m.opcodeAmong (some 0xA4) (some 0xB4) none (some 0xAC) (some 0xBC) none none none
  | .lsr .acc => some 0x4A
  | .lsr (.mem m) => m.opcodeAmong (some 0x46) (some 0x56) none (some 0x4E) (some 0x5E) none none none
  | .nop => some 0xEA
  | .ora (.imm _) => some 0x09
  | .ora (.mem m) => m.opcodeAmong (some 0x05) (some 0x15) none (some 0x0D) (some 0x1D) (some 0x19) (some 0x01) (some 0x11)
  | .pha => some 0x48
  | .php => some 0x08
  | .pla => some 0x68
  | .plp => some 0x28
  | .rol .acc => some 0x2A
  | .rol (.mem m) => m.opcodeAmong (some 0x26) (some 0x36) none (some 0x2E) (some 0x3E) none none none
  | .ror .acc => some 0x6A
  | .ror (.mem m) => m.opcodeAmong (some 0x66) (some 0x76) none (some 0x6E) (some 0x7E) none none none
  | .rti => some 0x40
  | .rts => some 0x60
  | .sbc (.imm _) => some 0xE9
  | .sbc (.mem m) => m.opcodeAmong (some 0xE5) (some 0xF5) none (some 0xED) (some 0xFD) (some 0xF9) (some 0xE1) (some 0xF1)
  | .sec => some 0x38
  | .sed => some 0xF8
  | .sei => some 0x78
  | .sta m => m.opcodeAmong (some 0x85) (some 0x95) none (some 0x8D) (some 0x9D) (some 0x99) (some 0x81) (some 0x91)
  | .stx m => m.opcodeAmong (some 0x86) none (some 0x96) (some 0x8E) none none none none
  | .sty m => m.opcodeAmong (some 0x84) (some 0x94) none (some 0x8C) none none none none
  | .tax => some 0xAA
  | .tay => some 0xA8
  | .tsx => some 0xBA
  | .txa => some 0x8A
  | .txs => some 0x9A
  | .tya => some 0x98
  | .invalid op => if op ∈ invalidBytes then some op else none

/-- The bytes of an instruction; `none` where the (mnemonic, mode) pair has no opcode. -/
def encode (i : Instr) : Option (List Byte) :=
  match i.opcode with
  | some op => some (op :: i.operandBytes)
  | none => none

end Sys2Proof
end

