-- ==== Sys2Proof/Machine/Flags.lean ====
section
/-! DEFINITION. The bits of the status word (R16) and every flag computation of the instruction rules: `SetNZ` (R90),
the binary adder with carry and signed overflow (R120 to R124), compare (R128 to R130), bit test (R131), the four
shifts (R141 to R144). Sums are exact naturals, narrowed at the end. -/

namespace Sys2Proof.Machine

/-- The eight bits of P; U is bit 5, which the source does not name (R16). -/
inductive Flag where
  | n
  | v
  | u
  | b
  | d
  | i
  | z
  | c
  deriving DecidableEq, Repr

/-- The position of a flag in P (R16; D2, log entry 7, UNVERIFIED, unsafe). -/
def Flag.pos : Flag → Nat
  | .n => 7
  | .v => 6
  | .u => 5
  | .b => 4
  | .d => 3
  | .i => 2
  | .z => 1
  | .c => 0

/-- The mask of a flag in P (R16). -/
def Flag.mask (f : Flag) : Byte := 1#8 <<< f.pos

/-- `P.f`. -/
def readFlag (p : Byte) (f : Flag) : Bool := p.getLsbD f.pos

/-- `P.f <- on`: one bit is written and no other changes. -/
def writeFlag (p : Byte) (f : Flag) (on : Bool) : Byte :=
  if on then p ||| f.mask else p &&& ~~~f.mask

/-- `SetNZ(v)` on a status word: N is bit 7 of `v`, Z says that `v` is 0 (R90). -/
def writeNZ (p v : Byte) : Byte := writeFlag (writeFlag p .n v.msb) .z (v == 0)

/-- What the adder gives: the wrapped sum, the carry out of bit 7 and the signed overflow (R120). -/
structure Sum where
  value : Byte
  carry : Bool
  overflow : Bool
  deriving DecidableEq, Repr

/-- `a + m + c`: value modulo 256, C when the exact sum exceeds 255, V by R121's formula on the old operands (R123).
Binary whatever the D flag holds (R122; log entry 6). -/
def addWithCarry (a m : Byte) (c : Bool) : Sum :=
  let s := a.toNat + m.toNat + c.toNat
  let r := BitVec.ofNat 8 s
  { value := r
    carry := decide (255 < s)
    overflow := ((a ^^^ r) &&& (m ^^^ r)).msb }

/-- `sbc`'s adder: the same with the operand complemented, C meaning "no borrow" in and out (R124). -/
def subWithCarry (a m : Byte) (c : Bool) : Sum := addWithCarry a (m ^^^ 0xFF) c

/-- The status word after `adc` or `sbc` gave `r` (R123, R124): N, V, Z, C written, B, D, I, U kept. -/
def writeSum (p : Byte) (r : Sum) : Byte :=
  writeNZ (writeFlag (writeFlag p .c r.carry) .v r.overflow) r.value

/-- The status word after comparing register value `r` with `m` (R128): C is `r >= m` unsigned, Z is `r = m`, N is bit
7 of the wrapped difference, V kept. -/
def writeCompare (p r m : Byte) : Byte :=
  writeFlag (writeFlag (writeFlag p .c (decide (m.toNat ≤ r.toNat))) .z (r == m)) .n (r - m).msb

/-- The status word after `bit` (R131): Z from `a & m`, N and V are bits 7 and 6 of `m`, C kept. -/
def writeBitTest (p a m : Byte) : Byte :=
  writeFlag (writeFlag (writeFlag p .z ((a &&& m) == 0)) .n (m.getLsbD 7)) .v (m.getLsbD 6)

/-- The result of a shift or rotate and its new carry. -/
structure Shifted where
  value : Byte
  carry : Bool
  deriving DecidableEq, Repr

/-- `asl`: bit 0 becomes 0, C is the old bit 7 (R141). -/
def shiftLeft (v : Byte) : Shifted := { value := v <<< 1, carry := v.getLsbD 7 }

/-- `lsr`: bit 7 becomes 0, C is the old bit 0 (R142). -/
def shiftRight (v : Byte) : Shifted := { value := v >>> 1, carry := v.getLsbD 0 }

/-- `rol`: the old carry enters bit 0, C is the old bit 7 (R143). -/
def rotateLeft (v : Byte) (c : Bool) : Shifted :=
  { value := (v <<< 1) ||| (BitVec.ofBool c).setWidth 8, carry := v.getLsbD 7 }

/-- `ror`: the old carry enters bit 7, C is the old bit 0 (R144). -/
def rotateRight (v : Byte) (c : Bool) : Shifted :=
  { value := (v >>> 1) ||| ((BitVec.ofBool c).setWidth 8 <<< 7), carry := v.getLsbD 0 }

/-- The status word after a shift gave `r` (R141 to R144): C, N and Z written, V kept. -/
def writeShifted (p : Byte) (r : Shifted) : Byte := writeNZ (writeFlag p .c r.carry) r.value

end Sys2Proof.Machine
end

