-- ==== Sys2Proof/Config.lean ====
section
/-! DEFINITION. The parameters of spec/00_scope.md R3 that are plain values, each at the value or default the spec gives.
`ITAB`, the instruction table, is Decode.lean's `decodeBytes`; `DECIMAL_ARITH = false` is the absence of any use of the
D flag in Machine/Flags.lean's adder. Log entry 6 (UNVERIFIED, unsafe): the four parameters rest on the spec's own
decisions D1, D4, D8 and D9. -/

namespace Sys2Proof.Config

/-- `RESET_VECTOR`, fixed by the source (R3, R41). -/
def resetVector : Word := 0xFFFC

/-- `BRK_VECTOR`, parameter, default of D8 (R3, R39). -/
def brkVector : Word := 0xFFFE

/-- `SP_RESET`, fixed by the source (R3, R231). -/
def spReset : Byte := 0xFF

/-- `P_BASELINE`, parameter, default of D4 (R3, R231). -/
def pBaseline : Byte := 0x00

/-- The page byte of every stack address (R13, R40). -/
def stackPage : Byte := 0x01

end Sys2Proof.Config
end

