-- ==== Sys2Proof/Machine/Memory.lean ====
section
/-! DEFINITION. The memory behind the memory port: the reference platform of R46, 65536 bytes of RAM without side
effects, as a list of (address, byte) pairs in one canonical form. No access faults (R32). -/

namespace Sys2Proof.Machine

/-- The memory: the bytes that differ from `memoryFill`, by strictly rising address. -/
abbrev Memory := List Host.Cell

/-- What an address that is not listed reads as. DESIGN CHOICE (log entry 1, unsafe): the spec leaves the initial
contents a free input (R46, D15); 0x00 is the convention of its test vectors (95_test_vectors.md, Conventions). -/
def memoryFill : Byte := 0x00

/-- The byte at an address number. -/
def Memory.peek (m : Memory) (a : Nat) : Byte :=
  match m with
  | [] => memoryFill
  | c :: rest => if c.1 = a then c.2 else Memory.peek rest a

/-- The list without the entries of one address. -/
def Memory.erase (m : Memory) (a : Nat) : Memory := m.filter (fun c => c.1 != a)

/-- The list with one entry put before the first one of a higher address. -/
def Memory.insertCell (m : Memory) (a : Nat) (v : Byte) : Memory :=
  match m with
  | [] => [(a, v)]
  | c :: rest => if a < c.1 then (a, v) :: c :: rest else c :: Memory.insertCell rest a v

/-- Storing a byte at an address number; storing `memoryFill` removes the entry, which keeps the form canonical. -/
def Memory.poke (m : Memory) (a : Nat) (v : Byte) : Memory :=
  if v = memoryFill then m.erase a else (m.erase a).insertCell a v

/-- `MemRead(addr, 1)` (R32, R46). -/
def Memory.read (m : Memory) (addr : Word) : Byte := m.peek addr.toNat

/-- `MemWrite(addr, 1, v)` (R32, R46). -/
def Memory.write (m : Memory) (addr : Word) (v : Byte) : Memory := m.poke addr.toNat v

/-- `MemRead(addr, 2)`: the byte at `addr` is bits 7:0, the byte at `addr + 1` modulo 65536 bits 15:8 (R33, R35). -/
def Memory.readWord (m : Memory) (addr : Word) : Word := joinBytes (m.read (addr + 1)) (m.read addr)

/-- `MemWrite(addr, 2, w)`: low byte at `addr`, then high byte at `addr + 1` modulo 65536 (R35). -/
def Memory.writeWord (m : Memory) (addr : Word) (w : Word) : Memory :=
  (m.write addr (loByte w)).write (addr + 1) (hiByte w)

/-- Every entry from here on lies at or above `lo` and below 65536, strictly rising, and differs from `memoryFill`. -/
def Memory.wfFrom (lo : Nat) (m : Memory) : Bool :=
  match m with
  | [] => true
  | c :: rest => decide (lo ≤ c.1) && decide (c.1 < 65536) && decide (c.2 ≠ memoryFill) && Memory.wfFrom (c.1 + 1) rest

/-- The canonical form. -/
def Memory.wf (m : Memory) : Bool := m.wfFrom 0

end Sys2Proof.Machine
end

