-- ==== Sys2Proof/Machine/State.lean ====
section
/-! DEFINITION. The state of the core (R8, R10, R16, R46), the reasons a step could stop, and the state after reset.
All of R10's registers and the memory are here; `result` is the model's own field for the result port (log entry 4). -/

namespace Sys2Proof.Machine

/-- The errors the result port can report after `Execute` (R4, R200): there is exactly one. -/
inductive ExecError where
  | unimplementedOpcode
  deriving DecidableEq, Repr

/-- What the result port gives after one `Execute` (R4, R89, R200): the bytes consumed and the error, `none` on success. -/
structure Report where
  bytesConsumed : Nat
  error : Option ExecError
  deriving DecidableEq, Repr

/-- The state of the machine. -/
structure State where
  /-- A, the accumulator (R11). -/
  a : Byte
  /-- X, an index register (R12). -/
  x : Byte
  /-- Y, an index register (R12). -/
  y : Byte
  /-- SP, the low byte of a stack address (R13). -/
  sp : Byte
  /-- PC, the address of the next instruction's opcode byte (R14). -/
  pc : Word
  /-- P, the status word, N V U B D I Z C from bit 7 down (R16). -/
  p : Byte
  /-- The memory behind the memory port (R30, R46). -/
  mem : Memory
  /-- MODEL'S OWN (log entry 4, DESIGN CHOICE, safe): what the result port gave for the last command, `none` after a
  reset, which returns nothing (R4). No step reads it (R8, R26). -/
  result : Option Report
  deriving DecidableEq, Repr

/-- Why the machine could stop with a fault: there is no reason. No register or memory access fails (R32, R202), and
the one failure the spec has leaves the machine going on: it is the decode failure, a next state with the report
`unimplementedOpcode` (R200, R201; log entry 3, safe). So this type has no constructor and no step can fault. -/
inductive Fault where
  deriving DecidableEq, Repr

/-- Why the model could refuse an instruction. -/
inductive Refusal where
  /-- Raised by an arm of `exec` whose instruction has no meaning yet; no arm raises it. Safe: nothing is claimed of
  an instruction that is refused. -/
  | notModelled (mnemonic : String)
  deriving DecidableEq, Repr

/-- The machine right after `HardReset` (R27, R231) over a memory that lists nothing: A, X, Y zero, SP 0xFF, P the
baseline with I set, PC the word at the reset vector. Nothing else of the spec's is in the state; the result port has
given nothing. Log entries 1 and 5 (DESIGN CHOICE, unsafe): the bytes of the vector read as `memoryFill`. -/
def State.reset : State :=
  { a := 0x00
    x := 0x00
    y := 0x00
    sp := Config.spReset
    pc := Memory.readWord [] Config.resetVector
    p := Config.pBaseline ||| 0x04
    mem := []
    result := none }

end Sys2Proof.Machine
end

