-- ==== Sys2Proof/Machine/Ops.lean ====
section
/-! DEFINITION. The named operations over the state: registers, flags, memory port, stack (R90 to R93), the end of a
step (R74, R89), the one exception (R200, R205), and the break entry with the return from it (R173, R174, R206, R207). -/

namespace Sys2Proof.Machine

/-- `A <- v` (R11). -/
def State.setA (s : State) (v : Byte) : State := { s with a := v }

/-- `X <- v` (R12). -/
def State.setX (s : State) (v : Byte) : State := { s with x := v }

/-- `Y <- v` (R12). -/
def State.setY (s : State) (v : Byte) : State := { s with y := v }

/-- `SP <- v` (R13). -/
def State.setSP (s : State) (v : Byte) : State := { s with sp := v }

/-- `pc <- v` (R14). -/
def State.setPC (s : State) (v : Word) : State := { s with pc := v }

/-- `P <- v`, all eight bits (R16). -/
def State.setP (s : State) (v : Byte) : State := { s with p := v }

/-- The result port's answer to the command that ends (R4; log entry 4). -/
def State.setResult (s : State) (r : Option Report) : State := { s with result := r }

/-- `P.f` (R16). -/
def State.flag (s : State) (f : Flag) : Bool := readFlag s.p f

/-- `P.f <- on` (R16). -/
def State.setFlag (s : State) (f : Flag) (on : Bool) : State := s.setP (writeFlag s.p f on)

/-- `SetNZ(v)` (R90). -/
def State.setNZ (s : State) (v : Byte) : State := s.setP (writeNZ s.p v)

/-- `MemRead(addr, 1)` (R32, R94). -/
def State.memRead (s : State) (addr : Word) : Byte := s.mem.read addr

/-- `MemRead(addr, 2)` (R35). -/
def State.memReadWord (s : State) (addr : Word) : Word := s.mem.readWord addr

/-- `MemWrite(addr, 1, v)` (R32, R94). -/
def State.memWrite (s : State) (addr : Word) (v : Byte) : State := { s with mem := s.mem.write addr v }

/-- The address of the stack slot `sp` names: `0x0100 + sp` (R13, R40). -/
def stackAddr (sp : Byte) : Word := joinBytes Config.stackPage sp

/-- `Push(v)`: write at the slot SP names, then decrement SP modulo 256 (R91). -/
def State.push (s : State) (v : Byte) : State := (s.memWrite (stackAddr s.sp) v).setSP (s.sp - 1)

/-- The state after `Pull()`: SP incremented modulo 256 (R92; D5, log entry 7, UNVERIFIED, unsafe). -/
def State.pulled (s : State) : State := s.setSP (s.sp + 1)

/-- The byte `Pull()` returns: the one at the slot the incremented SP names (R92). -/
def State.pullValue (s : State) : Byte := s.memRead (stackAddr (s.sp + 1))

/-- `PushWord(w)`: high byte first (R93; D6, log entry 7, UNVERIFIED, unsafe). -/
def State.pushWord (s : State) (w : Word) : State := (s.push (hiByte w)).push (loByte w)

/-- The state after `PullWord()` (R93). -/
def State.pulledWord (s : State) : State := s.pulled.pulled

/-- The word `PullWord()` returns: low byte pulled first, then high (R93). -/
def State.pullWordValue (s : State) : Word := joinBytes s.pulled.pullValue s.pullValue

/-- Steps 5 and 6 of `Execute` on success (R70, R74, R89): PC is the target the routine set, or else it advances by the
length modulo 65536; the report is the length and no error. -/
def State.finish (s : State) (len : Nat) (target : Option Word) : State :=
  (s.setPC (target.getD (s.pc + BitVec.ofNat 16 len))).setResult (some { bytesConsumed := len, error := none })

/-- `raise UnimplementedOpcode`: taking the one exception (R200, R205). Registers, PC, P and memory are unchanged,
nothing is saved; the result port reports the error and 0 bytes consumed. Log entry 3 (DESIGN CHOICE, safe). -/
def State.raiseUnimplemented (s : State) : State :=
  s.setResult (some { bytesConsumed := 0, error := some .unimplementedOpcode })

/-- The address `brk` pushes: `pc + 2` (R173). -/
def State.breakReturn (s : State) : Word := s.pc + 2

/-- The state `brk` leaves, but for PC (R173, R206): return address pushed high byte first, B set, P pushed with the old
I, then I set. The sequence is D8's (log entry 6, UNVERIFIED, unsafe). -/
def State.enterBreak (s : State) : State :=
  let s := (s.pushWord s.breakReturn).setFlag .b true
  (s.push s.p).setFlag .i true

/-- Where `brk` goes: the word at the break vector, read after the pushes (R173). -/
def State.breakTarget (s : State) : Word := s.enterBreak.memReadWord Config.brkVector

/-- The state `rti` leaves, but for PC (R174, R207): P whole from the first byte pulled, then the return word pulled. -/
def State.leaveBreak (s : State) : State := (s.pulled.setP s.pullValue).pulledWord

/-- Where `rti` goes: the word pulled after P, with nothing added (R174). -/
def State.leaveTarget (s : State) : Word := s.pulled.pullWordValue

end Sys2Proof.Machine
end

