-- ==== Sys2Proof/Machine/Operands.lean ====
section
/-! DEFINITION. The addressing-mode resolver (R75 to R87) and operand access (R94, R140), one arm per mode. The operand
bytes are the instruction's own fields, read by the fetch before anything is written (R42, R75; log entry 8). -/

namespace Sys2Proof.Machine

/-- The effective address of a memory operand (R75): ZeroPage R78, ZeroPageIndexedX R79, ZeroPageIndexedY R80, Absolute
R85, AbsoluteIndexedX R81, AbsoluteIndexedY R82, PreIndexedIndirect R83, PostIndexedIndirect R84. The zero-page sums
wrap modulo 256; pointer words are plain word reads, so a pointer at 0x00FF has its high byte at 0x0100. -/
def effectiveAddr (m : MemOperand) (s : State) : Word :=
  match m with
  | .zp b => zext16 b
  | .zpx b => zext16 (b + s.x)
  | .zpy b => zext16 (b + s.y)
  | .abs w => w
  | .abx w => w + zext16 s.x
  | .aby w => w + zext16 s.y
  | .izx b => s.memReadWord (zext16 (b + s.x))
  | .izy b => s.memReadWord (zext16 b) + zext16 s.y

/-- The byte a read operand gives: the literal (R77), or the byte at the effective address (R94). -/
def readValue (o : ReadOperand) (s : State) : Byte :=
  match o with
  | .imm v => v
  | .mem m => s.memRead (effectiveAddr m s)

/-- The value a shift works on: A, or the byte at the effective address (R140). -/
def shiftValue (o : ShiftOperand) (s : State) : Byte :=
  match o with
  | .acc => s.a
  | .mem m => s.memRead (effectiveAddr m s)

/-- `operand <- r` of a shift: A, or the byte at the effective address (R140). -/
def storeShift (o : ShiftOperand) (r : Byte) (s : State) : State :=
  match o with
  | .acc => s.setA r
  | .mem m => s.memWrite (effectiveAddr m s) r

/-- The target of `jmp` (R161): the operand word (R85), or the word stored at it, a plain word read (R86). -/
def jumpTarget (t : JumpOperand) (s : State) : Word :=
  match t with
  | .abs w => w
  | .ind w => s.memReadWord w

/-- The target of a branch: `pc + 2 + sext_16(b1)` modulo 65536 (R55, R87). -/
def branchTarget (off : Byte) (s : State) : Word := s.pc + 2 + sext16 off

end Sys2Proof.Machine
end

