-- ==== Sys2Proof/Machine/LoadStore.lean ====
section
/-! DEFINITION. Load, store and transfer (spec/41_load_store_transfer.md, R100 to R112). -/

namespace Sys2Proof.Machine

/-- A step that reads one operand byte `M` and changes the state by it; PC advances by the mode's length (R94, R100). -/
def withOperand (o : ReadOperand) (s : State) (f : Byte → State → State) : Host.Outcome State Fault Refusal :=
  .next ((f (readValue o s) s).finish o.mode.len none)

/-- A step that writes one byte at the effective address and nothing else (R94, R104). -/
def storeByte (m : MemOperand) (v : Byte) (s : State) : Host.Outcome State Fault Refusal :=
  .next ((s.memWrite (effectiveAddr m s) v).finish m.mode.len none)

/-- An Implicit instruction that does not set PC: one byte long (R76). -/
def implied (t : State) : Host.Outcome State Fault Refusal :=
  .next (t.finish Mode.implicit.len none)

/-- `lda` (R101). -/
def execLda (o : ReadOperand) (s : State) : Host.Outcome State Fault Refusal :=
  withOperand o s (fun m s => (s.setA m).setNZ m)

/-- `ldx` (R102). -/
def execLdx (o : ReadOperand) (s : State) : Host.Outcome State Fault Refusal :=
  withOperand o s (fun m s => (s.setX m).setNZ m)

/-- `ldy` (R103). -/
def execLdy (o : ReadOperand) (s : State) : Host.Outcome State Fault Refusal :=
  withOperand o s (fun m s => (s.setY m).setNZ m)

/-- `sta` (R104). -/
def execSta (m : MemOperand) (s : State) : Host.Outcome State Fault Refusal := storeByte m s.a s

/-- `stx` (R105). -/
def execStx (m : MemOperand) (s : State) : Host.Outcome State Fault Refusal := storeByte m s.x s

/-- `sty` (R106). -/
def execSty (m : MemOperand) (s : State) : Host.Outcome State Fault Refusal := storeByte m s.y s

/-- `tax` (R107). -/
def execTax (s : State) : Host.Outcome State Fault Refusal := implied ((s.setX s.a).setNZ s.a)

/-- `tay` (R108). -/
def execTay (s : State) : Host.Outcome State Fault Refusal := implied ((s.setY s.a).setNZ s.a)

/-- `txa` (R109). -/
def execTxa (s : State) : Host.Outcome State Fault Refusal := implied ((s.setA s.x).setNZ s.x)

/-- `tya` (R110). -/
def execTya (s : State) : Host.Outcome State Fault Refusal := implied ((s.setA s.y).setNZ s.y)

/-- `tsx` (R111). -/
def execTsx (s : State) : Host.Outcome State Fault Refusal := implied ((s.setX s.sp).setNZ s.sp)

/-- `txs`, the one transfer that writes no flag (R112). -/
def execTxs (s : State) : Host.Outcome State Fault Refusal := implied (s.setSP s.x)

end Sys2Proof.Machine
end

