-- ==== Sys2Proof/Machine/Arith.lean ====
section
/-! DEFINITION. Arithmetic, logic, compare and bit test (spec/42_arithmetic_logic_compare.md, R120 to R131). -/

namespace Sys2Proof.Machine

/-- A logic instruction: A takes the result, N and Z follow it, C and V are kept (R125 to R127). -/
def logicStep (o : ReadOperand) (s : State) (op : Byte → Byte → Byte) : Host.Outcome State Fault Refusal :=
  withOperand o s (fun m s => (s.setA (op s.a m)).setNZ (op s.a m))

/-- A compare of the register value `r`: only N, Z and C change (R128 to R130). -/
def compareStep (o : ReadOperand) (r : Byte) (s : State) : Host.Outcome State Fault Refusal :=
  withOperand o s (fun m s => s.setP (writeCompare s.p r m))

/-- `adc` (R123). -/
def execAdc (o : ReadOperand) (s : State) : Host.Outcome State Fault Refusal :=
  withOperand o s (fun m s =>
    let r := addWithCarry s.a m (s.flag .c)
    (s.setA r.value).setP (writeSum s.p r))

/-- `sbc` (R124). -/
def execSbc (o : ReadOperand) (s : State) : Host.Outcome State Fault Refusal :=
  withOperand o s (fun m s =>
    let r := subWithCarry s.a m (s.flag .c)
    (s.setA r.value).setP (writeSum s.p r))

/-- `and` (R125). -/
def execAnd (o : ReadOperand) (s : State) : Host.Outcome State Fault Refusal := logicStep o s (fun a m => a &&& m)

/-- `ora` (R126). -/
def execOra (o : ReadOperand) (s : State) : Host.Outcome State Fault Refusal := logicStep o s (fun a m => a ||| m)

/-- `eor` (R127). -/
def execEor (o : ReadOperand) (s : State) : Host.Outcome State Fault Refusal := logicStep o s (fun a m => a ^^^ m)

/-- `cmp` (R128). -/
def execCmp (o : ReadOperand) (s : State) : Host.Outcome State Fault Refusal := compareStep o s.a s

/-- `cpx` (R129). -/
def execCpx (o : ReadOperand) (s : State) : Host.Outcome State Fault Refusal := compareStep o s.x s

/-- `cpy` (R130). -/
def execCpy (o : ReadOperand) (s : State) : Host.Outcome State Fault Refusal := compareStep o s.y s

/-- `bit` (R131). -/
def execBit (m : MemOperand) (s : State) : Host.Outcome State Fault Refusal :=
  withOperand (.mem m) s (fun v s => s.setP (writeBitTest s.p s.a v))

end Sys2Proof.Machine
end

