-- ==== Sys2Proof/Machine/Control.lean ====
section
/-! DEFINITION. Control transfer (spec/44_control_transfer.md, R160 to R174) and the decode failure
(spec/60_exceptions.md, R200). A routine that sets PC gives `State.finish` its target (R74, R160). -/

namespace Sys2Proof.Machine

/-- A branch: to the target when the condition holds, else on to the next instruction (R164). -/
def branchIf (taken : Bool) (off : Byte) (s : State) : Host.Outcome State Fault Refusal :=
  .next (s.finish Mode.relative.len (if taken then some (branchTarget off s) else none))

/-- `jmp` (R161). -/
def execJmp (t : JumpOperand) (s : State) : Host.Outcome State Fault Refusal :=
  .next (s.finish t.mode.len (some (jumpTarget t s)))

/-- `jsr`: pushes `pc + 2`, the address of its own last byte (R162; D7, log entry 7, UNVERIFIED, unsafe). -/
def execJsr (target : Word) (s : State) : Host.Outcome State Fault Refusal :=
  .next ((s.pushWord (s.pc + 2)).finish Mode.absolute.len (some target))

/-- `rts`: to the pulled word plus 1 (R163). -/
def execRts (s : State) : Host.Outcome State Fault Refusal :=
  .next (s.pulledWord.finish Mode.implicit.len (some (s.pullWordValue + 1)))

/-- `bpl` (R165). -/
def execBpl (off : Byte) (s : State) : Host.Outcome State Fault Refusal := branchIf (!s.flag .n) off s

/-- `bmi` (R166). -/
def execBmi (off : Byte) (s : State) : Host.Outcome State Fault Refusal := branchIf (s.flag .n) off s

/-- `bvc` (R167). -/
def execBvc (off : Byte) (s : State) : Host.Outcome State Fault Refusal := branchIf (!s.flag .v) off s

/-- `bvs` (R168). -/
def execBvs (off : Byte) (s : State) : Host.Outcome State Fault Refusal := branchIf (s.flag .v) off s

/-- `bcc` (R169). -/
def execBcc (off : Byte) (s : State) : Host.Outcome State Fault Refusal := branchIf (!s.flag .c) off s

/-- `bcs` (R170). -/
def execBcs (off : Byte) (s : State) : Host.Outcome State Fault Refusal := branchIf (s.flag .c) off s

/-- `bne` (R171). -/
def execBne (off : Byte) (s : State) : Host.Outcome State Fault Refusal := branchIf (!s.flag .z) off s

/-- `beq` (R172). -/
def execBeq (off : Byte) (s : State) : Host.Outcome State Fault Refusal := branchIf (s.flag .z) off s

/-- `brk` (R173). -/
def execBrk (s : State) : Host.Outcome State Fault Refusal :=
  .next (s.enterBreak.finish Mode.implicit.len (some s.breakTarget))

/-- `rti` (R174). -/
def execRti (s : State) : Host.Outcome State Fault Refusal :=
  .next (s.leaveBreak.finish Mode.implicit.len (some s.leaveTarget))

/-- An Invalid opcode: the decode failure, which takes the one exception (R59, R72, R200). The byte plays no part. -/
def execInvalid (_op : Byte) (s : State) : Host.Outcome State Fault Refusal := .next s.raiseUnimplemented

end Sys2Proof.Machine
end

