-- ==== Sys2Proof/Machine/Shift.lean ====
section
/-! DEFINITION. Shifts, rotates, increments and decrements (spec/43_shift_incdec.md, R140 to R150). -/

namespace Sys2Proof.Machine

/-- A shift that gave `r`: the operand takes its value, then C, N and Z follow it (R140 to R144). -/
def shiftStep (o : ShiftOperand) (r : Shifted) (s : State) : Host.Outcome State Fault Refusal :=
  .next (((storeShift o r.value s).setP (writeShifted s.p r)).finish o.mode.len none)

/-- A memory operand that takes the value `r`, N and Z following it, C and V kept (R145, R146). -/
def modifyStep (m : MemOperand) (r : Byte) (s : State) : Host.Outcome State Fault Refusal :=
  .next (((s.memWrite (effectiveAddr m s) r).setNZ r).finish m.mode.len none)

/-- `asl` (R141). -/
def execAsl (o : ShiftOperand) (s : State) : Host.Outcome State Fault Refusal :=
  shiftStep o (shiftLeft (shiftValue o s)) s

/-- `lsr` (R142). -/
def execLsr (o : ShiftOperand) (s : State) : Host.Outcome State Fault Refusal :=
  shiftStep o (shiftRight (shiftValue o s)) s

/-- `rol` (R143). -/
def execRol (o : ShiftOperand) (s : State) : Host.Outcome State Fault Refusal :=
  shiftStep o (rotateLeft (shiftValue o s) (s.flag .c)) s

/-- `ror` (R144). -/
def execRor (o : ShiftOperand) (s : State) : Host.Outcome State Fault Refusal :=
  shiftStep o (rotateRight (shiftValue o s) (s.flag .c)) s

/-- `inc` (R145). -/
def execInc (m : MemOperand) (s : State) : Host.Outcome State Fault Refusal :=
  modifyStep m (s.memRead (effectiveAddr m s) + 1) s

/-- `dec` (R146). -/
def execDec (m : MemOperand) (s : State) : Host.Outcome State Fault Refusal :=
  modifyStep m (s.memRead (effectiveAddr m s) - 1) s

/-- `inx` (R147). -/
def execInx (s : State) : Host.Outcome State Fault Refusal := implied ((s.setX (s.x + 1)).setNZ (s.x + 1))

/-- `iny` (R148). -/
def execIny (s : State) : Host.Outcome State Fault Refusal := implied ((s.setY (s.y + 1)).setNZ (s.y + 1))

/-- `dex` (R149). -/
def execDex (s : State) : Host.Outcome State Fault Refusal := implied ((s.setX (s.x - 1)).setNZ (s.x - 1))

/-- `dey` (R150). -/
def execDey (s : State) : Host.Outcome State Fault Refusal := implied ((s.setY (s.y - 1)).setNZ (s.y - 1))

end Sys2Proof.Machine
end

