-- ==== Sys2Proof/Machine/Stack.lean ====
section
/-! DEFINITION. Stack, flag and no-operation instructions (spec/45_stack_flag_nop.md, R180 to R191). -/

namespace Sys2Proof.Machine

/-- `pha` (R180). -/
def execPha (s : State) : Host.Outcome State Fault Refusal := implied (s.push s.a)

/-- `php`: P as stored, all eight bits (R181; D18, log entry 7, UNVERIFIED, unsafe). -/
def execPhp (s : State) : Host.Outcome State Fault Refusal := implied (s.push s.p)

/-- `pla` (R182). -/
def execPla (s : State) : Host.Outcome State Fault Refusal := implied ((s.pulled.setA s.pullValue).setNZ s.pullValue)

/-- `plp`: all eight bits of P (R183). -/
def execPlp (s : State) : Host.Outcome State Fault Refusal := implied (s.pulled.setP s.pullValue)

/-- `clc` (R184). -/
def execClc (s : State) : Host.Outcome State Fault Refusal := implied (s.setFlag .c false)

/-- `sec` (R185). -/
def execSec (s : State) : Host.Outcome State Fault Refusal := implied (s.setFlag .c true)

/-- `cli` (R186). -/
def execCli (s : State) : Host.Outcome State Fault Refusal := implied (s.setFlag .i false)

/-- `sei` (R187). -/
def execSei (s : State) : Host.Outcome State Fault Refusal := implied (s.setFlag .i true)

/-- `cld` (R188). -/
def execCld (s : State) : Host.Outcome State Fault Refusal := implied (s.setFlag .d false)

/-- `sed` (R189). -/
def execSed (s : State) : Host.Outcome State Fault Refusal := implied (s.setFlag .d true)

/-- `clv` (R190). -/
def execClv (s : State) : Host.Outcome State Fault Refusal := implied (s.setFlag .v false)

/-- `nop` (R191). -/
def execNop (s : State) : Host.Outcome State Fault Refusal := implied s

end Sys2Proof.Machine
end

