-- ==== Sys2Proof/Machine/Fetch.lean ====
section
/-! DEFINITION. Fetching an instruction's bytes at PC (R50, R71, R75), byte by byte in ascending address order, wrapping
modulo 65536 (R33), and placing one there. -/

namespace Sys2Proof.Machine

/-- The instruction at PC: the opcode at `pc`, operand bytes at `pc + 1` and `pc + 2` (R14, R50). A byte beyond the
instruction's length plays no part in `decodeBytes`; which reads the port sees is Transactions.lean's (log entry 9). -/
def fetchInstr (s : State) : Instr :=
  decodeBytes (s.memRead s.pc) (s.memRead (s.pc + 1)) (s.memRead (s.pc + 2))

/-- `s` with the low three bytes of the number `v` at `pc`, `pc + 1`, `pc + 2`, least significant first. -/
def placeInstr (s : State) (v : Nat) : State :=
  ((s.memWrite s.pc (BitVec.ofNat 8 v)).memWrite (s.pc + 1) (BitVec.ofNat 8 (v / 256))).memWrite (s.pc + 2)
    (BitVec.ofNat 8 (v / 65536))

end Sys2Proof.Machine
end

