-- ==== Sys2Proof/Machine/Step.lean ====
section
/-! DEFINITION. One `Execute` command (R70): fetch and decode the instruction at PC, then execute it. -/

namespace Sys2Proof.Machine

/-- `Execute`: exactly one instruction. -/
def step (s : State) : Host.Outcome State Fault Refusal := exec (fetchInstr s) s

/-- `s` with the instruction of a table row stored at PC, where `step` fetches it: three bytes, the first at PC, every
bit of `w` from `nbits` up being 0. Stands for the host's loading of a program (R211; log entry 5). -/
def State.withFetchWord (s : State) (nbits w : Nat) : State := placeInstr s (w % 2 ^ nbits)

end Sys2Proof.Machine
end

