-- ==== Sys2Proof/Machine/Transactions.lean ====
section
/-! DEFINITION. The memory-port transactions of a step, in order (R38, R42, R45), written from R45's table beside the
meanings, not read off them; `replay` says what a list of them means for a memory. On the reference platform no
transaction has a side effect, so the state does not hold them (log entry 10). -/

namespace Sys2Proof.Machine

/-- One byte transaction on the memory port with the byte that crosses it (R4, R37). -/
inductive Transaction where
  | read (addr : Word) (value : Byte)
  | write (addr : Word) (value : Byte)
  deriving DecidableEq, Repr

/-- Reads of some addresses of `s`, in order. -/
def readsOf (s : State) (addrs : List Word) : List Transaction := addrs.map (fun a => .read a (s.memRead a))

/-- The resolver's reads of a memory operand: the operand byte or bytes, then the pointer word low byte first (R45). -/
def resolverReads (m : MemOperand) (s : State) : List Transaction :=
  match m with
  | .zp _ => readsOf s [s.pc + 1]
  | .zpx _ => readsOf s [s.pc + 1]
  | .zpy _ => readsOf s [s.pc + 1]
  | .abs _ => readsOf s [s.pc + 1, s.pc + 2]
  | .abx _ => readsOf s [s.pc + 1, s.pc + 2]
  | .aby _ => readsOf s [s.pc + 1, s.pc + 2]
  | .izx b => readsOf s [s.pc + 1, zext16 (b + s.x), zext16 (b + s.x) + 1]
  | .izy b => readsOf s [s.pc + 1, zext16 b, zext16 b + 1]

/-- The reads of an instruction that only reads its operand: an immediate is read at `pc + 1` (R45, R77). -/
def operandReads (o : ReadOperand) (s : State) : List Transaction :=
  match o with
  | .imm _ => readsOf s [s.pc + 1]
  | .mem m => resolverReads m s ++ readsOf s [effectiveAddr m s]

/-- A read-modify-write: one read and one write of the effective address (R42, R94). -/
def modifyAccess (m : MemOperand) (r : Byte) (s : State) : List Transaction :=
  resolverReads m s ++ readsOf s [effectiveAddr m s] ++ [.write (effectiveAddr m s) r]

/-- A shift: nothing in Implicit mode, else a read-modify-write (R45, R140). -/
def shiftAccess (o : ShiftOperand) (r : Shifted) (s : State) : List Transaction :=
  match o with
  | .acc => []
  | .mem m => modifyAccess m r.value s

/-- A store: the resolver's reads, then one write (R45, R104). -/
def storeAccess (m : MemOperand) (v : Byte) (s : State) : List Transaction :=
  resolverReads m s ++ [.write (effectiveAddr m s) v]

/-- A jump: its operand bytes, and in Indirect mode the two bytes of the target (R45). -/
def jumpReads (t : JumpOperand) (s : State) : List Transaction :=
  match t with
  | .abs _ => readsOf s [s.pc + 1, s.pc + 2]
  | .ind w => readsOf s [s.pc + 1, s.pc + 2, w, w + 1]

/-- The transactions after the opcode read (R45). -/
def bodyTransactions (i : Instr) (s : State) : List Transaction :=
  match i with
  | .adc o => operandReads o s
  | .and o => operandReads o s
  | .asl o => shiftAccess o (shiftLeft (shiftValue o s)) s
  | .bcc _ => readsOf s [s.pc + 1]
  | .bcs _ => readsOf s [s.pc + 1]
  | .beq _ => readsOf s [s.pc + 1]
  | .bit m => operandReads (.mem m) s
  | .bmi _ => readsOf s [s.pc + 1]
  | .bne _ => readsOf s [s.pc + 1]
  | .bpl _ => readsOf s [s.pc + 1]
  | .brk =>
    [.write (stackAddr s.sp) (hiByte (s.pc + 2)), .write (stackAddr (s.sp - 1)) (loByte (s.pc + 2)),
      .write (stackAddr (s.sp - 2)) (writeFlag s.p .b true)] ++ readsOf s.enterBreak [Config.brkVector, Config.brkVector + 1]
  | .bvc _ => readsOf s [s.pc + 1]
  | .bvs _ => readsOf s [s.pc + 1]
  | .clc => []
  | .cld => []
  | .cli => []
  | .clv => []
  | .cmp o => operandReads o s
  | .cpx o => operandReads o s
  | .cpy o => operandReads o s
  | .dec m => modifyAccess m (s.memRead (effectiveAddr m s) - 1) s
  | .dex => []
  | .dey => []
  | .eor o => operandReads o s
  | .inc m => modifyAccess m (s.memRead (effectiveAddr m s) + 1) s
  | .inx => []
  | .iny => []
  | .jmp t => jumpReads t s
  | .jsr _ =>
    readsOf s [s.pc + 1, s.pc + 2] ++
      [.write (stackAddr s.sp) (hiByte (s.pc + 2)), .write (stackAddr (s.sp - 1)) (loByte (s.pc + 2))]
  | .lda o => operandReads o s
  | .ldx o => operandReads o s
  | .ldy o => operandReads o s
  | .lsr o => shiftAccess o (shiftRight (shiftValue o s)) s
  | .nop => []
  | .ora o => operandReads o s
  | .pha => [.write (stackAddr s.sp) s.a]
  | .php => [.write (stackAddr s.sp) s.p]
  | .pla => readsOf s [stackAddr (s.sp + 1)]
  | .plp => readsOf s [stackAddr (s.sp + 1)]
  | .rol o => shiftAccess o (rotateLeft (shiftValue o s) (s.flag .c)) s
  | .ror o => shiftAccess o (rotateRight (shiftValue o s) (s.flag .c)) s
  | .rti => readsOf s [stackAddr (s.sp + 1), stackAddr (s.sp + 2), stackAddr (s.sp + 3)]
  | .rts => readsOf s [stackAddr (s.sp + 1), stackAddr (s.sp + 2)]
  | .sbc o => operandReads o s
  | .sec => []
  | .sed => []
  | .sei => []
  | .sta m => storeAccess m s.a s
  | .stx m => storeAccess m s.x s
  | .sty m => storeAccess m s.y s
  | .tax => []
  | .tay => []
  | .tsx => []
  | .txa => []
  | .txs => []
  | .tya => []
  | .invalid _ => []

/-- The complete list of the transactions of one `Execute`: the opcode read first, once (R45, R71). -/
def stepTransactions (s : State) : List Transaction :=
  readsOf s [s.pc] ++ bodyTransactions (fetchInstr s) s

/-- What a list of transactions makes of a memory: each read must return the byte the memory holds at that moment, each
write stores its byte; `none` if some read does not fit (R42). -/
def replay (m : Memory) : List Transaction → Option Memory
  | [] => some m
  | .read addr v :: rest => if m.read addr = v then replay m rest else none
  | .write addr v :: rest => replay (m.write addr v) rest

end Sys2Proof.Machine
end

