-- ==== Sys2Proof/Machine/Commands.lean ====
section
/-! DEFINITION. The host's side (R4): the command port with the two resets (R230, R231), the host register port (R210)
and host memory access (R211). `step` is `Execute`; the host's other actions happen between commands (log entry 11). -/

namespace Sys2Proof.Machine

/-- `SoftReset`: PC from the reset vector, I set, all else kept (R230). It returns nothing (R4). -/
def State.softReset (s : State) : State :=
  ((s.setPC (s.memReadWord Config.resetVector)).setFlag .i true).setResult none

/-- `HardReset`: A, X, Y zero, SP 0xFF, P the baseline, then `SoftReset` (R231). -/
def State.hardReset (s : State) : State :=
  (((((s.setA 0x00).setX 0x00).setY 0x00).setSP Config.spReset).setP Config.pBaseline).softReset

/-- The three commands of the command port (R4). -/
inductive Command where
  | execute
  | softReset
  | hardReset
  deriving DecidableEq, Repr

/-- One command, run to completion (R5). The resets never fail (R232). -/
def runCommand (c : Command) (s : State) : Host.Outcome State Fault Refusal :=
  match c with
  | .execute => step s
  | .softReset => .next s.softReset
  | .hardReset => .next s.hardReset

/-- The memory-port transactions of a command: a reset reads the two bytes of the vector, low byte first, and writes
nothing (R230, R231; the order by R35). -/
def commandTransactions (c : Command) (s : State) : List Transaction :=
  match c with
  | .execute => stepTransactions s
  | .softReset => readsOf s [Config.resetVector, Config.resetVector + 1]
  | .hardReset => readsOf s [Config.resetVector, Config.resetVector + 1]

/-- The seven flags the host register port names singly (R210); U is reached only in the raw status word. -/
inductive NamedFlag where
  | n
  | v
  | b
  | d
  | i
  | z
  | c
  deriving DecidableEq, Repr

/-- The bit of P a named flag is (R16). -/
def NamedFlag.flag : NamedFlag → Flag
  | .n => .n
  | .v => .v
  | .b => .b
  | .d => .d
  | .i => .i
  | .z => .z
  | .c => .c

/-- A write by the host between commands (R210, R211); `memWord` is the word write of R35. -/
inductive HostWrite where
  | a (v : Byte)
  | x (v : Byte)
  | y (v : Byte)
  | sp (v : Byte)
  | pc (w : Word)
  | flag (f : NamedFlag) (on : Bool)
  | status (v : Byte)
  | mem (addr : Word) (v : Byte)
  | memWord (addr : Word) (w : Word)
  deriving DecidableEq, Repr

/-- A host write takes effect at once and changes nothing but what it names (R210, R211). -/
def hostWrite (h : HostWrite) (s : State) : State :=
  match h with
  | .a v => s.setA v
  | .x v => s.setX v
  | .y v => s.setY v
  | .sp v => s.setSP v
  | .pc w => s.setPC w
  | .flag f on => s.setFlag f.flag on
  | .status v => s.setP v
  | .mem addr v => s.memWrite addr v
  | .memWord addr w => (s.memWrite addr (loByte w)).memWrite (addr + 1) (hiByte w)

/-- What the host can read between commands (R210, R211). -/
inductive HostRead where
  | a
  | x
  | y
  | sp
  | pc
  | flag (f : NamedFlag)
  | status
  | mem (addr : Word)
  | memWord (addr : Word)
  deriving DecidableEq, Repr

/-- The value a host read returns. -/
inductive HostValue where
  | bit (on : Bool)
  | byte (v : Byte)
  | word (w : Word)
  deriving DecidableEq, Repr

/-- A host read; it changes nothing and cannot fail (R210, R211). -/
def hostRead (h : HostRead) (s : State) : HostValue :=
  match h with
  | .a => .byte s.a
  | .x => .byte s.x
  | .y => .byte s.y
  | .sp => .byte s.sp
  | .pc => .word s.pc
  | .flag f => .bit (s.flag f.flag)
  | .status => .byte s.p
  | .mem addr => .byte (s.memRead addr)
  | .memWord addr => .word (s.memReadWord addr)

/-- One action of the host that can change the state: a command, or a write between commands (R7, R209). -/
inductive HostAction where
  | command (c : Command)
  | write (h : HostWrite)
  deriving DecidableEq, Repr

/-- One host action. -/
def hostAct (h : HostAction) (s : State) : Host.Outcome State Fault Refusal :=
  match h with
  | .command c => runCommand c s
  | .write w => .next (hostWrite w s)

/-- A run: the actions the host chooses, one after the other (R209, R241). It goes on after a decode failure (R201). -/
def hostRun (hs : List HostAction) (s : State) : Host.Outcome State Fault Refusal :=
  match hs with
  | [] => .next s
  | h :: rest =>
    match hostAct h s with
    | .next t => hostRun rest t
    | .fault r => .fault r
    | .refused r => .refused r

end Sys2Proof.Machine
end

