-- ==== Sys2Proof/Machine/Text.lean ====
section
/-! DEFINITION. The assembler notation of the instructions (R60 to R66, S1), as lists of characters: `Instr.text` writes
the canonical text, `parseText` reads one instruction back. Spelling details follow the spec's D19 (log entry 13). The
disassembler and assembler as components (addresses, buffers, error texts) are outside the block (R2). -/

namespace Sys2Proof

/-- One upper-case hexadecimal digit (R61, D19). -/
def hexDigit (d : BitVec 4) : Char :=
  ['0', '1', '2', '3', '4', '5', '6', '7', '8', '9', 'A', 'B', 'C', 'D', 'E', 'F'].getD d.toNat '0'

/-- Two digits, most significant first: `xx` (R61). -/
def hexByte (b : Byte) : List Char := [hexDigit (b.extractLsb' 4 4), hexDigit (b.extractLsb' 0 4)]

/-- Four digits, most significant first: `xxxx` (R61). -/
def hexWord (w : Word) : List Char := hexByte (hiByte w) ++ hexByte (loByte w)

/-- One decimal digit. -/
def decimalDigit (n : Nat) : Char := ['0', '1', '2', '3', '4', '5', '6', '7', '8', '9'].getD n '0'

/-- A magnitude up to 128 in decimal, without leading zeros. -/
def magnitudeText (n : Nat) : List Char :=
  if n < 10 then [decimalDigit n]
  else if n < 100 then [decimalDigit (n / 10), decimalDigit (n % 10)]
  else [decimalDigit (n / 100), decimalDigit (n / 10 % 10), decimalDigit (n % 10)]

/-- The signed decimal offset of a branch, `-128` to `127`, a leading `-` on a negative one only (R65, D19). -/
def decimalText (off : Byte) : List Char :=
  if off.msb then '-' :: magnitudeText (256 - off.toNat) else magnitudeText off.toNat

/-- The operand text of a memory mode (R61, R63). -/
def MemOperand.text : MemOperand → List Char
  | .zp b => '$' :: hexByte b
  | .zpx b => '$' :: hexByte b ++ [',', ' ', 'X']
  | .zpy b => '$' :: hexByte b ++ [',', ' ', 'Y']
  | .abs w => '$' :: hexWord w
  | .abx w => '$' :: hexWord w ++ [',', ' ', 'X']
  | .aby w => '$' :: hexWord w ++ [',', ' ', 'Y']
  | .izx b => '(' :: '$' :: hexByte b ++ [',', ' ', 'X', ')']
  | .izy b => '(' :: '$' :: hexByte b ++ [')', ',', ' ', 'Y']

/-- The operand text of a read operand (R61). -/
def ReadOperand.text : ReadOperand → List Char
  | .imm v => '#' :: '$' :: hexByte v
  | .mem m => m.text

/-- The operand text of a shift's operand; the accumulator form has none (R61, R76). -/
def ShiftOperand.text : ShiftOperand → List Char
  | .acc => []
  | .mem m => m.text

/-- The operand text of a jump's operand (R61). -/
def JumpOperand.text : JumpOperand → List Char
  | .abs w => '$' :: hexWord w
  | .ind w => '(' :: '$' :: hexWord w ++ [')']

/-- The mnemonic, three lower-case letters (R60); an Invalid byte has none (R64). -/
def Instr.mnemonicText : Instr → List Char
  | .adc _ => ['a', 'd', 'c']
  | .and _ => ['a', 'n', 'd']
  | .asl _ => ['a', 's', 'l']
  | .bcc _ => ['b', 'c', 'c']
  | .bcs _ => ['b', 'c', 's']
  | .beq _ => ['b', 'e', 'q']
  | .bit _ => ['b', 'i', 't']
  | .bmi _ => ['b', 'm', 'i']
  | .bne _ => ['b', 'n', 'e']
  | .bpl _ => ['b', 'p', 'l']
  | .brk => ['b', 'r', 'k']
  | .bvc _ => ['b', 'v', 'c']
  | .bvs _ => ['b', 'v', 's']
  | .clc => ['c', 'l', 'c']
  | .cld => ['c', 'l', 'd']
  | .cli => ['c', 'l', 'i']
  | .clv => ['c', 'l', 'v']
  | .cmp _ => ['c', 'm', 'p']
  | .cpx _ => ['c', 'p', 'x']
  | .cpy _ => ['c', 'p', 'y']
  | .dec _ => ['d', 'e', 'c']
  | .dex => ['d', 'e', 'x']
  | .dey => ['d', 'e', 'y']
  | .eor _ => ['e', 'o', 'r']
  | .inc _ => ['i', 'n', 'c']
  | .inx => ['i', 'n', 'x']
  | .iny => ['i', 'n', 'y']
  | .jmp _ => ['j', 'm', 'p']
  | .jsr _ => ['j', 's', 'r']
  | .lda _ => ['l', 'd', 'a']
  | .ldx _ => ['l', 'd', 'x']
  | .ldy _ => ['l', 'd', 'y']
  | .lsr _ => ['l', 's', 'r']
  | .nop => ['n', 'o', 'p']
  | .ora _ => ['o', 'r', 'a']
  | .pha => ['p', 'h', 'a']
  | .php => ['p', 'h', 'p']
  | .pla => ['p', 'l', 'a']
  | .plp => ['p', 'l', 'p']
  | .rol _ => ['r', 'o', 'l']
  | .ror _ => ['r', 'o', 'r']
  | .rti => ['r', 't', 'i']
  | .rts => ['r', 't', 's']
  | .sbc _ => ['s', 'b', 'c']
  | .sec => ['s', 'e', 'c']
  | .sed => ['s', 'e', 'd']
  | .sei => ['s', 'e', 'i']
  | .sta _ => ['s', 't', 'a']
  | .stx _ => ['s', 't', 'x']
  | .sty _ => ['s', 't', 'y']
  | .tax => ['t', 'a', 'x']
  | .tay => ['t', 'a', 'y']
  | .tsx => ['t', 's', 'x']
  | .txa => ['t', 'x', 'a']
  | .txs => ['t', 'x', 's']
  | .tya => ['t', 'y', 'a']
  | .invalid _ => []

/-- The operand text of an instruction, empty in Implicit mode (R61). -/
def Instr.operandText : Instr → List Char
  | .adc o => o.text
  | .and o => o.text
  | .asl o => o.text
  | .bcc off => decimalText off
  | .bcs off => decimalText off
  | .beq off => decimalText off
  | .bit m => m.text
  | .bmi off => decimalText off
  | .bne off => decimalText off
  | .bpl off => decimalText off
  | .brk => []
  | .bvc off => decimalText off
  | .bvs off => decimalText off
  | .clc => []
  | .cld => []
  | .cli => []
  | .clv => []
  | .cmp o => o.text
  | .cpx o => o.text
  | .cpy o => o.text
  | .dec m => m.text
  | .dex => []
  | .dey => []
  | .eor o => o.text
  | .inc m => m.text
  | .inx => []
  | .iny => []
  | .jmp t => t.text
  | .jsr w => '$' :: hexWord w
  | .lda o => o.text
  | .ldx o => o.text
  | .ldy o => o.text
  | .lsr o => o.text
  | .nop => []
  | .ora o => o.text
  | .pha => []
  | .php => []
  | .pla => []
  | .plp => []
  | .rol o => o.text
  | .ror o => o.text
  | .rti => []
  | .rts => []
  | .sbc o => o.text
  | .sec => []
  | .sed => []
  | .sei => []
  | .sta m => m.text
  | .stx m => m.text
  | .sty m => m.text
  | .tax => []
  | .tay => []
  | .tsx => []
  | .txa => []
  | .txs => []
  | .tya => []
  | .invalid _ => []

/-- The canonical text: the mnemonic, then a space and the operand text where there is one (R60). -/
def Instr.text (i : Instr) : List Char :=
  match i.operandText with
  | [] => i.mnemonicText
  | c :: rest => i.mnemonicText ++ ' ' :: c :: rest

/-- What the disassembler says of an instruction (R64): an Invalid byte is a data directive of length 1 that is not
valid, whose spelling the spec does not give, so there is no text. -/
structure Disassembly where
  text : Option (List Char)
  length : Nat
  isValid : Bool
  deriving DecidableEq, Repr

/-- The disassembly of an instruction (R60, R64). -/
def disassembly (i : Instr) : Disassembly :=
  match i.mode with
  | .invalid => { text := none, length := i.len, isValid := false }
  | _ => { text := some i.text, length := i.len, isValid := true }

/-- The value of a hexadecimal digit as `hexDigit` writes it. -/
def hexValue (c : Char) : Option (BitVec 4) :=
  [0x0, 0x1, 0x2, 0x3, 0x4, 0x5, 0x6, 0x7, 0x8, 0x9, 0xA, 0xB, 0xC, 0xD, 0xE, 0xF].find? (fun d => hexDigit d == c)

/-- Two hexadecimal digits. -/
def parseByte (c1 c0 : Char) : Option Byte :=
  match hexValue c1, hexValue c0 with
  | some d1, some d0 => some (d1 ++ d0)
  | _, _ => none

/-- Four hexadecimal digits. -/
def parseWord (c3 c2 c1 c0 : Char) : Option Word :=
  match parseByte c3 c2, parseByte c1 c0 with
  | some hi, some lo => some (joinBytes hi lo)
  | _, _ => none

/-- A signed decimal offset. -/
def parseDecimal (t : List Char) : Option Byte :=
  ((List.range 256).map (BitVec.ofNat 8)).find? (fun b => decimalText b == t)

/-- An operand as its text shows it: the punctuation and the number of digits select the mode (R62). -/
inductive TextOperand where
  | implicit
  | imm (v : Byte)
  | mem (m : MemOperand)
  | ind (w : Word)
  | rel (off : Byte)
  deriving DecidableEq, Repr

/-- Reading an operand text (R61, R62). -/
def parseOperand (t : List Char) : Option TextOperand :=
  match t with
  | [] => some .implicit
  | ['#', '$', c1, c0] => (parseByte c1 c0).map .imm
  | ['$', c1, c0] => (parseByte c1 c0).map (fun b => .mem (.zp b))
  | ['$', c1, c0, ',', ' ', 'X'] => (parseByte c1 c0).map (fun b => .mem (.zpx b))
  | ['$', c1, c0, ',', ' ', 'Y'] => (parseByte c1 c0).map (fun b => .mem (.zpy b))
  | ['$', c3, c2, c1, c0] => (parseWord c3 c2 c1 c0).map (fun w => .mem (.abs w))
  | ['$', c3, c2, c1, c0, ',', ' ', 'X'] => (parseWord c3 c2 c1 c0).map (fun w => .mem (.abx w))
  | ['$', c3, c2, c1, c0, ',', ' ', 'Y'] => (parseWord c3 c2 c1 c0).map (fun w => .mem (.aby w))
  | ['(', '$', c1, c0, ',', ' ', 'X', ')'] => (parseByte c1 c0).map (fun b => .mem (.izx b))
  | ['(', '$', c1, c0, ')', ',', ' ', 'Y'] => (parseByte c1 c0).map (fun b => .mem (.izy b))
  | ['(', '$', c3, c2, c1, c0, ')'] => (parseWord c3 c2 c1 c0).map .ind
  | t => (parseDecimal t).map .rel

/-- The mnemonics whose operand is only read. -/
def readMnemonics : List (List Char × (ReadOperand → Instr)) :=
  [(['a', 'd', 'c'], .adc),
   (['a', 'n', 'd'], .and),
   (['c', 'm', 'p'], .cmp),
   (['c', 'p', 'x'], .cpx),
   (['c', 'p', 'y'], .cpy),
   (['e', 'o', 'r'], .eor),
   (['l', 'd', 'a'], .lda),
   (['l', 'd', 'x'], .ldx),
   (['l', 'd', 'y'], .ldy),
   (['o', 'r', 'a'], .ora),
   (['s', 'b', 'c'], .sbc)]

/-- The mnemonics whose operand is in memory. -/
def memMnemonics : List (List Char × (MemOperand → Instr)) :=
  [(['b', 'i', 't'], .bit),
   (['d', 'e', 'c'], .dec),
   (['i', 'n', 'c'], .inc),
   (['s', 't', 'a'], .sta),
   (['s', 't', 'x'], .stx),
   (['s', 't', 'y'], .sty)]

/-- The shifts. -/
def shiftMnemonics : List (List Char × (ShiftOperand → Instr)) :=
  [(['a', 's', 'l'], .asl),
   (['l', 's', 'r'], .lsr),
   (['r', 'o', 'l'], .rol),
   (['r', 'o', 'r'], .ror)]

/-- The branches. -/
def branchMnemonics : List (List Char × (Byte → Instr)) :=
  [(['b', 'c', 'c'], .bcc),
   (['b', 'c', 's'], .bcs),
   (['b', 'e', 'q'], .beq),
   (['b', 'm', 'i'], .bmi),
   (['b', 'n', 'e'], .bne),
   (['b', 'p', 'l'], .bpl),
   (['b', 'v', 'c'], .bvc),
   (['b', 'v', 's'], .bvs)]

/-- The mnemonics that have the Implicit mode only. -/
def impliedMnemonics : List (List Char × Instr) :=
  [(['b', 'r', 'k'], .brk),
   (['c', 'l', 'c'], .clc),
   (['c', 'l', 'd'], .cld),
   (['c', 'l', 'i'], .cli),
   (['c', 'l', 'v'], .clv),
   (['d', 'e', 'x'], .dex),
   (['d', 'e', 'y'], .dey),
   (['i', 'n', 'x'], .inx),
   (['i', 'n', 'y'], .iny),
   (['n', 'o', 'p'], .nop),
   (['p', 'h', 'a'], .pha),
   (['p', 'h', 'p'], .php),
   (['p', 'l', 'a'], .pla),
   (['p', 'l', 'p'], .plp),
   (['r', 't', 'i'], .rti),
   (['r', 't', 's'], .rts),
   (['s', 'e', 'c'], .sec),
   (['s', 'e', 'd'], .sed),
   (['s', 'e', 'i'], .sei),
   (['t', 'a', 'x'], .tax),
   (['t', 'a', 'y'], .tay),
   (['t', 's', 'x'], .tsx),
   (['t', 'x', 'a'], .txa),
   (['t', 'x', 's'], .txs),
   (['t', 'y', 'a'], .tya)]

/-- The instruction a mnemonic and an operand name, before the check that the pair exists. -/
def pairInstr (m : List Char) (o : TextOperand) : Option Instr :=
  match o with
  | .implicit =>
    match impliedMnemonics.lookup m with
    | some i => some i
    | none => (shiftMnemonics.lookup m).map (fun f => f .acc)
  | .imm v => (readMnemonics.lookup m).map (fun f => f (.imm v))
  | .mem mo =>
    match readMnemonics.lookup m, memMnemonics.lookup m, shiftMnemonics.lookup m with
    | some f, _, _ => some (f (.mem mo))
    | none, some f, _ => some (f mo)
    | none, none, some f => some (f (.mem mo))
    | none, none, none =>
      match mo with
      | .abs w => if m = ['j', 'm', 'p'] then some (.jmp (.abs w)) else if m = ['j', 's', 'r'] then some (.jsr w) else none
      | _ => none
  | .ind w => if m = ['j', 'm', 'p'] then some (.jmp (.ind w)) else none
  | .rel off => (branchMnemonics.lookup m).map (fun f => f off)

/-- The (mnemonic, mode) pair selects the opcode; a pair absent from the table is refused (R56, R62). -/
def checkedInstr (m : List Char) (o : TextOperand) : Option Instr :=
  match pairInstr m o with
  | some i => if i.wellFormed then some i else none
  | none => none

/-- Reading the canonical text of one instruction (R62, R66): three letters, then nothing or a space and an operand. -/
def parseText (t : List Char) : Option Instr :=
  match t with
  | [l2, l1, l0] => checkedInstr [l2, l1, l0] .implicit
  | l2 :: l1 :: l0 :: ' ' :: c :: rest =>
    match parseOperand (c :: rest) with
    | some o => checkedInstr [l2, l1, l0] o
    | none => none
  | _ => none

end Sys2Proof
end

