-- ==== Sys2Proof/Safety.lean ====
section
/-! DEFINITION. The terms the statements use: good states, what a step leaves unchanged, and the spec's own tables of
which instructions write which flag (R25), register (R11 to R13), memory byte (R45) and the PC (R15). -/

namespace Sys2Proof.Machine

/-- A report the result port can give (R4, R89, R200): 1 to 3 bytes and no error, or 0 bytes and the decode failure. -/
def Report.legal (r : Report) : Bool :=
  match r.error with
  | none => decide (1 ≤ r.bytesConsumed) && decide (r.bytesConsumed ≤ 3)
  | some .unimplementedOpcode => decide (r.bytesConsumed = 0)

/-- The invariant of the model: the memory has its canonical form and the last report is a legal one. -/
def State.good (s : State) : Bool :=
  s.mem.wf && (match s.result with
    | none => true
    | some r => r.legal)

/-- The same six registers and the same memory, all the state the spec gives the core (R8). -/
def State.sameCore (s t : State) : Prop := s.setResult none = t.setResult none

/-- The 8-bit registers an instruction names (R10). -/
inductive Reg where
  | a
  | x
  | y
  | sp
  deriving DecidableEq, Repr

/-- `x[r]` (spec/00_scope.md section 5). -/
def State.reg (s : State) : Reg → Byte
  | .a => s.a
  | .x => s.x
  | .y => s.y
  | .sp => s.sp

/-- Every 8-bit register but the named ones keeps its value from `s` to `t`. -/
def State.regsKept (s t : State) (but : List Reg) : Prop := ∀ r : Reg, r ∉ but → t.reg r = s.reg r

/-- Every bit of P but the named ones keeps its value from `s` to `t`. -/
def State.flagsKept (s t : State) (but : List Flag) : Prop := ∀ f : Flag, f ∉ but → t.flag f = s.flag f

/-- Every byte of memory but those at the named addresses reads in `t` as in `s`. -/
def State.memKept (s t : State) (but : List Word) : Prop := ∀ b : Word, b ∉ but → t.memRead b = s.memRead b

/-- N and Z are what `SetNZ(v)` leaves: N is bit 7 of `v`, Z says that `v` is 0 (R90). -/
def State.showsNZ (t : State) (v : Byte) : Prop := t.flag .n = v.getLsbD 7 ∧ t.flag .z = decide (v = 0)

/-- From `s` to `t` PC advanced by `len` bytes modulo 65536 (R70, R74). -/
def State.wentOn (s t : State) (len : Nat) : Prop := t.pc = s.pc + BitVec.ofNat 16 len

/-- `r` is where a shift puts its result and nothing else of the registers and memory changed: in A in Implicit mode,
else at the effective address the operand has in `s` (R140). -/
def shiftTook (o : ShiftOperand) (r : Byte) (s t : State) : Prop :=
  match o with
  | .acc => t.a = r ∧ s.regsKept t [.a] ∧ s.memKept t []
  | .mem m => t.memRead (effectiveAddr m s) = r ∧ s.regsKept t [] ∧ s.memKept t [effectiveAddr m s]

/-- The flags an instruction writes: the table of R25. -/
def flagsWritten : Instr → List Flag
  | .lda _ | .ldx _ | .ldy _ | .tax | .tay | .txa | .tya | .tsx | .pla => [.n, .z]
  | .and _ | .ora _ | .eor _ => [.n, .z]
  | .inc _ | .dec _ | .inx | .iny | .dex | .dey => [.n, .z]
  | .adc _ | .sbc _ => [.n, .v, .z, .c]
  | .cmp _ | .cpx _ | .cpy _ => [.n, .z, .c]
  | .bit _ => [.n, .v, .z]
  | .asl _ | .rol _ | .lsr _ | .ror _ => [.n, .z, .c]
  | .clc | .sec => [.c]
  | .cli | .sei => [.i]
  | .cld | .sed => [.d]
  | .clv => [.v]
  | .plp | .rti => [.n, .v, .u, .b, .d, .i, .z, .c]
  | .brk => [.b, .i]
  | .sta _ | .stx _ | .sty _ | .txs | .pha | .php | .jmp _ | .jsr _ | .rts | .nop => []
  | .bpl _ | .bmi _ | .bvc _ | .bvs _ | .bcc _ | .bcs _ | .bne _ | .beq _ => []
  | .invalid _ => []

/-- The 8-bit registers an instruction writes: A by R11, X and Y by R12, SP by R13 (`txs` and the users of `Push` and
`Pull`). -/
def regsWritten : Instr → List Reg
  | .lda _ | .txa | .tya | .adc _ | .sbc _ | .and _ | .ora _ | .eor _ => [.a]
  | .asl .acc | .lsr .acc | .rol .acc | .ror .acc => [.a]
  | .asl (.mem _) | .lsr (.mem _) | .rol (.mem _) | .ror (.mem _) => []
  | .pla => [.a, .sp]
  | .ldx _ | .tax | .tsx | .inx | .dex => [.x]
  | .ldy _ | .tay | .iny | .dey => [.y]
  | .txs | .pha | .php | .plp | .jsr _ | .rts | .brk | .rti => [.sp]
  | .sta _ | .stx _ | .sty _ | .cmp _ | .cpx _ | .cpy _ | .bit _ | .inc _ | .dec _ | .jmp _ | .nop => []
  | .clc | .sec | .cli | .sei | .cld | .sed | .clv => []
  | .bpl _ | .bmi _ | .bvc _ | .bvs _ | .bcc _ | .bcs _ | .bne _ | .beq _ => []
  | .invalid _ => []

/-- The addresses an instruction stores to from the state `s`: the writes of R45's table. -/
def storedAddrs (i : Instr) (s : State) : List Word :=
  match i with
  | .sta m | .stx m | .sty m | .inc m | .dec m => [effectiveAddr m s]
  | .asl (.mem m) | .lsr (.mem m) | .rol (.mem m) | .ror (.mem m) => [effectiveAddr m s]
  | .asl .acc | .lsr .acc | .rol .acc | .ror .acc => []
  | .pha | .php => [stackAddr s.sp]
  | .jsr _ => [stackAddr s.sp, stackAddr (s.sp - 1)]
  | .brk => [stackAddr s.sp, stackAddr (s.sp - 1), stackAddr (s.sp - 2)]
  | .lda _ | .ldx _ | .ldy _ | .adc _ | .sbc _ | .and _ | .ora _ | .eor _ | .cmp _ | .cpx _ | .cpy _ | .bit _ => []
  | .tax | .tay | .txa | .tya | .tsx | .txs | .inx | .iny | .dex | .dey | .pla | .plp | .jmp _ | .rts | .rti => []
  | .clc | .sec | .cli | .sei | .cld | .sed | .clv | .nop => []
  | .bpl _ | .bmi _ | .bvc _ | .bvs _ | .bcc _ | .bcs _ | .bne _ | .beq _ => []
  | .invalid _ => []

/-- The instructions that may set PC themselves (R15, R74), and the decode failure, which leaves it (R200). -/
def mayLeaveSequence : Instr → Bool
  | .jmp _ | .jsr _ | .rts | .rti | .brk => true
  | .bpl _ | .bmi _ | .bvc _ | .bvs _ | .bcc _ | .bcs _ | .bne _ | .beq _ => true
  | .invalid _ => true
  | .lda _ | .ldx _ | .ldy _ | .sta _ | .stx _ | .sty _ | .tax | .tay | .txa | .tya | .tsx | .txs => false
  | .adc _ | .sbc _ | .and _ | .ora _ | .eor _ | .cmp _ | .cpx _ | .cpy _ | .bit _ => false
  | .asl _ | .lsr _ | .rol _ | .ror _ | .inc _ | .dec _ | .inx | .iny | .dex | .dey => false
  | .pha | .php | .pla | .plp | .clc | .sec | .cli | .sei | .cld | .sed | .clv | .nop => false

/-- The instruction is the decode failure (R59). -/
def isInvalid : Instr → Bool
  | .invalid _ => true
  | _ => false

end Sys2Proof.Machine
end

