-- ==== Sys2Proof/Certificates/Slice0/Obligations.lean ====
section
/-! DEFINITION. The statements for the provers, each from numbered rules of spec/ or, where it says so, resting on a
decision the spec marks as its own. Nothing here is proved. -/

open Sys2Proof Sys2Proof.Machine

/-- R101, R102, R103: a load fills its register with the operand byte, N and Z follow it, nothing else changes; with the
opcodes of every form. -/
def Obligations.LoadsSetRegisterAndNZ : Prop :=
  (∀ (o : ReadOperand) (s : State), ∃ t, exec (.lda o) s = .next t ∧ t.a = readValue o s ∧ t.showsNZ (readValue o s) ∧
    s.flagsKept t [.n, .z] ∧ s.regsKept t [.a] ∧ s.memKept t [] ∧ s.wentOn t o.mode.len) ∧
  (∀ (o : ReadOperand) (s : State), ∃ t, exec (.ldx o) s = .next t ∧ t.x = readValue o s ∧ t.showsNZ (readValue o s) ∧
    s.flagsKept t [.n, .z] ∧ s.regsKept t [.x] ∧ s.memKept t [] ∧ s.wentOn t o.mode.len) ∧
  (∀ (o : ReadOperand) (s : State), ∃ t, exec (.ldy o) s = .next t ∧ t.y = readValue o s ∧ t.showsNZ (readValue o s) ∧
    s.flagsKept t [.n, .z] ∧ s.regsKept t [.y] ∧ s.memKept t [] ∧ s.wentOn t o.mode.len) ∧
  (∀ b1 b2 : Byte,
    decodeBytes 0xA9 b1 b2 = .lda (.imm b1) ∧ decodeBytes 0xA5 b1 b2 = .lda (.mem (.zp b1)) ∧
    decodeBytes 0xB5 b1 b2 = .lda (.mem (.zpx b1)) ∧ decodeBytes 0xAD b1 b2 = .lda (.mem (.abs (joinBytes b2 b1))) ∧
    decodeBytes 0xBD b1 b2 = .lda (.mem (.abx (joinBytes b2 b1))) ∧
    decodeBytes 0xB9 b1 b2 = .lda (.mem (.aby (joinBytes b2 b1))) ∧
    decodeBytes 0xA1 b1 b2 = .lda (.mem (.izx b1)) ∧ decodeBytes 0xB1 b1 b2 = .lda (.mem (.izy b1)) ∧
    decodeBytes 0xA2 b1 b2 = .ldx (.imm b1) ∧ decodeBytes 0xA6 b1 b2 = .ldx (.mem (.zp b1)) ∧
    decodeBytes 0xB6 b1 b2 = .ldx (.mem (.zpy b1)) ∧ decodeBytes 0xAE b1 b2 = .ldx (.mem (.abs (joinBytes b2 b1))) ∧
    decodeBytes 0xBE b1 b2 = .ldx (.mem (.aby (joinBytes b2 b1))) ∧
    decodeBytes 0xA0 b1 b2 = .ldy (.imm b1) ∧ decodeBytes 0xA4 b1 b2 = .ldy (.mem (.zp b1)) ∧
    decodeBytes 0xB4 b1 b2 = .ldy (.mem (.zpx b1)) ∧ decodeBytes 0xAC b1 b2 = .ldy (.mem (.abs (joinBytes b2 b1))) ∧
    decodeBytes 0xBC b1 b2 = .ldy (.mem (.abx (joinBytes b2 b1))))

/-- R104, R105, R106: a store writes its register at the effective address, and no flag, register or other byte. The
address is `effectiveAddr m s`, the one the meanings use; with the opcodes of every form. The port sees the resolver's
reads and then exactly one write. Derived: that no flag is written is the spec's own (92_eei_decisions.md D20; log
entry 7). -/
def Obligations.StoresWriteOneByteAndNoFlag : Prop :=
  (∀ (m : MemOperand) (s : State), ∃ t, exec (.sta m) s = .next t ∧ t.memRead (effectiveAddr m s) = s.a ∧
    s.memKept t [effectiveAddr m s] ∧ s.regsKept t [] ∧ s.flagsKept t [] ∧ s.wentOn t m.mode.len) ∧
  (∀ (m : MemOperand) (s : State), ∃ t, exec (.stx m) s = .next t ∧ t.memRead (effectiveAddr m s) = s.x ∧
    s.memKept t [effectiveAddr m s] ∧ s.regsKept t [] ∧ s.flagsKept t [] ∧ s.wentOn t m.mode.len) ∧
  (∀ (m : MemOperand) (s : State), ∃ t, exec (.sty m) s = .next t ∧ t.memRead (effectiveAddr m s) = s.y ∧
    s.memKept t [effectiveAddr m s] ∧ s.regsKept t [] ∧ s.flagsKept t [] ∧ s.wentOn t m.mode.len) ∧
  (∀ b1 b2 : Byte,
    decodeBytes 0x85 b1 b2 = .sta (.zp b1) ∧ decodeBytes 0x95 b1 b2 = .sta (.zpx b1) ∧
    decodeBytes 0x8D b1 b2 = .sta (.abs (joinBytes b2 b1)) ∧ decodeBytes 0x9D b1 b2 = .sta (.abx (joinBytes b2 b1)) ∧
    decodeBytes 0x99 b1 b2 = .sta (.aby (joinBytes b2 b1)) ∧ decodeBytes 0x81 b1 b2 = .sta (.izx b1) ∧
    decodeBytes 0x91 b1 b2 = .sta (.izy b1) ∧ decodeBytes 0x86 b1 b2 = .stx (.zp b1) ∧
    decodeBytes 0x96 b1 b2 = .stx (.zpy b1) ∧ decodeBytes 0x8E b1 b2 = .stx (.abs (joinBytes b2 b1)) ∧
    decodeBytes 0x84 b1 b2 = .sty (.zp b1) ∧ decodeBytes 0x94 b1 b2 = .sty (.zpx b1) ∧
    decodeBytes 0x8C b1 b2 = .sty (.abs (joinBytes b2 b1))) ∧
  (∀ (m : MemOperand) (s : State), fetchInstr s = .sta m → stepTransactions s =
    readsOf s [s.pc] ++ resolverReads m s ++ [.write (effectiveAddr m s) s.a])

/-- R107 to R112: each transfer copies one register to another; all but `txs` set N and Z from it; with the opcodes.
Derived: the flags are the spec's own (92_eei_decisions.md D20; log entry 7). -/
def Obligations.TransfersCopyOneRegister : Prop :=
  (∀ s : State, ∃ t, exec .tax s = .next t ∧ t.x = s.a ∧ t.showsNZ s.a ∧ s.flagsKept t [.n, .z] ∧
    s.regsKept t [.x] ∧ s.memKept t [] ∧ s.wentOn t 1) ∧
  (∀ s : State, ∃ t, exec .tay s = .next t ∧ t.y = s.a ∧ t.showsNZ s.a ∧ s.flagsKept t [.n, .z] ∧
    s.regsKept t [.y] ∧ s.memKept t [] ∧ s.wentOn t 1) ∧
  (∀ s : State, ∃ t, exec .txa s = .next t ∧ t.a = s.x ∧ t.showsNZ s.x ∧ s.flagsKept t [.n, .z] ∧
    s.regsKept t [.a] ∧ s.memKept t [] ∧ s.wentOn t 1) ∧
  (∀ s : State, ∃ t, exec .tya s = .next t ∧ t.a = s.y ∧ t.showsNZ s.y ∧ s.flagsKept t [.n, .z] ∧
    s.regsKept t [.a] ∧ s.memKept t [] ∧ s.wentOn t 1) ∧
  (∀ s : State, ∃ t, exec .tsx s = .next t ∧ t.x = s.sp ∧ t.showsNZ s.sp ∧ s.flagsKept t [.n, .z] ∧
    s.regsKept t [.x] ∧ s.memKept t [] ∧ s.wentOn t 1) ∧
  (∀ s : State, ∃ t, exec .txs s = .next t ∧ t.sp = s.x ∧ s.flagsKept t [] ∧
    s.regsKept t [.sp] ∧ s.memKept t [] ∧ s.wentOn t 1) ∧
  (∀ b1 b2 : Byte, decodeBytes 0xAA b1 b2 = .tax ∧ decodeBytes 0xA8 b1 b2 = .tay ∧ decodeBytes 0x8A b1 b2 = .txa ∧
    decodeBytes 0x98 b1 b2 = .tya ∧ decodeBytes 0xBA b1 b2 = .tsx ∧ decodeBytes 0x9A b1 b2 = .txs)

/-- R120, R121, R123: `adc` is exact addition narrowed to 8 bits; C is the carry out, V says that the true signed sum
lies outside -128 to 127; with the opcodes of every form. Derived: nothing is assumed of D, which is the spec's own
decision (92_eei_decisions.md D9; log entry 6). -/
def Obligations.AdcAddsWithCarryAndOverflow : Prop :=
  (∀ (o : ReadOperand) (s : State), ∃ t, exec (.adc o) s = .next t ∧
    t.a.toNat = (s.a.toNat + (readValue o s).toNat + (s.flag .c).toNat) % 256 ∧
    t.flag .c = decide (255 < s.a.toNat + (readValue o s).toNat + (s.flag .c).toNat) ∧
    (t.flag .v = true ↔ s.a.toInt + (readValue o s).toInt + ((s.flag .c).toNat : Int) < -128 ∨
      127 < s.a.toInt + (readValue o s).toInt + ((s.flag .c).toNat : Int)) ∧
    t.showsNZ t.a ∧ s.flagsKept t [.n, .v, .z, .c] ∧ s.regsKept t [.a] ∧ s.memKept t [] ∧ s.wentOn t o.mode.len) ∧
  (∀ b1 b2 : Byte,
    decodeBytes 0x69 b1 b2 = .adc (.imm b1) ∧ decodeBytes 0x65 b1 b2 = .adc (.mem (.zp b1)) ∧
    decodeBytes 0x75 b1 b2 = .adc (.mem (.zpx b1)) ∧ decodeBytes 0x6D b1 b2 = .adc (.mem (.abs (joinBytes b2 b1))) ∧
    decodeBytes 0x7D b1 b2 = .adc (.mem (.abx (joinBytes b2 b1))) ∧
    decodeBytes 0x79 b1 b2 = .adc (.mem (.aby (joinBytes b2 b1))) ∧
    decodeBytes 0x61 b1 b2 = .adc (.mem (.izx b1)) ∧ decodeBytes 0x71 b1 b2 = .adc (.mem (.izy b1)))

/-- R124: `sbc` subtracts the operand and the borrow; C is 1 when there was no borrow, V says that the true signed
difference lies outside -128 to 127; with the opcodes of every form. Derived: nothing is assumed of D, which is the
spec's own decision (92_eei_decisions.md D9; log entry 6). -/
def Obligations.SbcSubtractsWithBorrowAndOverflow : Prop :=
  (∀ (o : ReadOperand) (s : State), ∃ t, exec (.sbc o) s = .next t ∧
    (t.a.toNat : Int) = ((s.a.toNat : Int) - (readValue o s).toNat - (1 - ((s.flag .c).toNat : Int))) % 256 ∧
    t.flag .c = decide ((readValue o s).toNat + (1 - (s.flag .c).toNat) ≤ s.a.toNat) ∧
    (t.flag .v = true ↔ s.a.toInt - (readValue o s).toInt - (1 - ((s.flag .c).toNat : Int)) < -128 ∨
      127 < s.a.toInt - (readValue o s).toInt - (1 - ((s.flag .c).toNat : Int))) ∧
    t.showsNZ t.a ∧ s.flagsKept t [.n, .v, .z, .c] ∧ s.regsKept t [.a] ∧ s.memKept t [] ∧ s.wentOn t o.mode.len) ∧
  (∀ b1 b2 : Byte,
    decodeBytes 0xE9 b1 b2 = .sbc (.imm b1) ∧ decodeBytes 0xE5 b1 b2 = .sbc (.mem (.zp b1)) ∧
    decodeBytes 0xF5 b1 b2 = .sbc (.mem (.zpx b1)) ∧ decodeBytes 0xED b1 b2 = .sbc (.mem (.abs (joinBytes b2 b1))) ∧
    decodeBytes 0xFD b1 b2 = .sbc (.mem (.abx (joinBytes b2 b1))) ∧
    decodeBytes 0xF9 b1 b2 = .sbc (.mem (.aby (joinBytes b2 b1))) ∧
    decodeBytes 0xE1 b1 b2 = .sbc (.mem (.izx b1)) ∧ decodeBytes 0xF1 b1 b2 = .sbc (.mem (.izy b1)))

/-- R125, R126, R127: the logic instructions combine A with the operand bit by bit; N and Z follow the result, C and V
are kept; with the opcodes of every form. -/
def Obligations.LogicInstructionsCombineBits : Prop :=
  (∀ (o : ReadOperand) (s : State), ∃ t, exec (.and o) s = .next t ∧
    (∀ k, t.a.getLsbD k = (s.a.getLsbD k && (readValue o s).getLsbD k)) ∧
    t.showsNZ t.a ∧ s.flagsKept t [.n, .z] ∧ s.regsKept t [.a] ∧ s.memKept t [] ∧ s.wentOn t o.mode.len) ∧
  (∀ (o : ReadOperand) (s : State), ∃ t, exec (.ora o) s = .next t ∧
    (∀ k, t.a.getLsbD k = (s.a.getLsbD k || (readValue o s).getLsbD k)) ∧
    t.showsNZ t.a ∧ s.flagsKept t [.n, .z] ∧ s.regsKept t [.a] ∧ s.memKept t [] ∧ s.wentOn t o.mode.len) ∧
  (∀ (o : ReadOperand) (s : State), ∃ t, exec (.eor o) s = .next t ∧
    (∀ k, t.a.getLsbD k = (s.a.getLsbD k ^^ (readValue o s).getLsbD k)) ∧
    t.showsNZ t.a ∧ s.flagsKept t [.n, .z] ∧ s.regsKept t [.a] ∧ s.memKept t [] ∧ s.wentOn t o.mode.len) ∧
  (∀ b1 b2 : Byte,
    decodeBytes 0x29 b1 b2 = .and (.imm b1) ∧ decodeBytes 0x25 b1 b2 = .and (.mem (.zp b1)) ∧
    decodeBytes 0x35 b1 b2 = .and (.mem (.zpx b1)) ∧ decodeBytes 0x2D b1 b2 = .and (.mem (.abs (joinBytes b2 b1))) ∧
    decodeBytes 0x3D b1 b2 = .and (.mem (.abx (joinBytes b2 b1))) ∧
    decodeBytes 0x39 b1 b2 = .and (.mem (.aby (joinBytes b2 b1))) ∧
    decodeBytes 0x21 b1 b2 = .and (.mem (.izx b1)) ∧ decodeBytes 0x31 b1 b2 = .and (.mem (.izy b1)) ∧
    decodeBytes 0x09 b1 b2 = .ora (.imm b1) ∧ decodeBytes 0x05 b1 b2 = .ora (.mem (.zp b1)) ∧
    decodeBytes 0x15 b1 b2 = .ora (.mem (.zpx b1)) ∧ decodeBytes 0x0D b1 b2 = .ora (.mem (.abs (joinBytes b2 b1))) ∧
    decodeBytes 0x1D b1 b2 = .ora (.mem (.abx (joinBytes b2 b1))) ∧
    decodeBytes 0x19 b1 b2 = .ora (.mem (.aby (joinBytes b2 b1))) ∧
    decodeBytes 0x01 b1 b2 = .ora (.mem (.izx b1)) ∧ decodeBytes 0x11 b1 b2 = .ora (.mem (.izy b1)) ∧
    decodeBytes 0x49 b1 b2 = .eor (.imm b1) ∧ decodeBytes 0x45 b1 b2 = .eor (.mem (.zp b1)) ∧
    decodeBytes 0x55 b1 b2 = .eor (.mem (.zpx b1)) ∧ decodeBytes 0x4D b1 b2 = .eor (.mem (.abs (joinBytes b2 b1))) ∧
    decodeBytes 0x5D b1 b2 = .eor (.mem (.abx (joinBytes b2 b1))) ∧
    decodeBytes 0x59 b1 b2 = .eor (.mem (.aby (joinBytes b2 b1))) ∧
    decodeBytes 0x41 b1 b2 = .eor (.mem (.izx b1)) ∧ decodeBytes 0x51 b1 b2 = .eor (.mem (.izy b1)))

/-- R128, R129, R130: a compare writes only N, Z and C: C is "register at least operand", Z is "equal", N is bit 7 of the
wrapped difference; with the opcodes of every form. -/
def Obligations.ComparesSetFlagsOnly : Prop :=
  (∀ (o : ReadOperand) (s : State), ∃ t, exec (.cmp o) s = .next t ∧
    t.flag .c = decide ((readValue o s).toNat ≤ s.a.toNat) ∧ t.flag .z = decide (s.a = readValue o s) ∧
    t.flag .n = decide (128 ≤ (256 + s.a.toNat - (readValue o s).toNat) % 256) ∧
    s.flagsKept t [.n, .z, .c] ∧ s.regsKept t [] ∧ s.memKept t [] ∧ s.wentOn t o.mode.len) ∧
  (∀ (o : ReadOperand) (s : State), ∃ t, exec (.cpx o) s = .next t ∧
    t.flag .c = decide ((readValue o s).toNat ≤ s.x.toNat) ∧ t.flag .z = decide (s.x = readValue o s) ∧
    t.flag .n = decide (128 ≤ (256 + s.x.toNat - (readValue o s).toNat) % 256) ∧
    s.flagsKept t [.n, .z, .c] ∧ s.regsKept t [] ∧ s.memKept t [] ∧ s.wentOn t o.mode.len) ∧
  (∀ (o : ReadOperand) (s : State), ∃ t, exec (.cpy o) s = .next t ∧
    t.flag .c = decide ((readValue o s).toNat ≤ s.y.toNat) ∧ t.flag .z = decide (s.y = readValue o s) ∧
    t.flag .n = decide (128 ≤ (256 + s.y.toNat - (readValue o s).toNat) % 256) ∧
    s.flagsKept t [.n, .z, .c] ∧ s.regsKept t [] ∧ s.memKept t [] ∧ s.wentOn t o.mode.len) ∧
  (∀ b1 b2 : Byte,
    decodeBytes 0xC9 b1 b2 = .cmp (.imm b1) ∧ decodeBytes 0xC5 b1 b2 = .cmp (.mem (.zp b1)) ∧
    decodeBytes 0xD5 b1 b2 = .cmp (.mem (.zpx b1)) ∧ decodeBytes 0xCD b1 b2 = .cmp (.mem (.abs (joinBytes b2 b1))) ∧
    decodeBytes 0xDD b1 b2 = .cmp (.mem (.abx (joinBytes b2 b1))) ∧
    decodeBytes 0xD9 b1 b2 = .cmp (.mem (.aby (joinBytes b2 b1))) ∧
    decodeBytes 0xC1 b1 b2 = .cmp (.mem (.izx b1)) ∧ decodeBytes 0xD1 b1 b2 = .cmp (.mem (.izy b1)) ∧
    decodeBytes 0xE0 b1 b2 = .cpx (.imm b1) ∧ decodeBytes 0xE4 b1 b2 = .cpx (.mem (.zp b1)) ∧
    decodeBytes 0xEC b1 b2 = .cpx (.mem (.abs (joinBytes b2 b1))) ∧
    decodeBytes 0xC0 b1 b2 = .cpy (.imm b1) ∧ decodeBytes 0xC4 b1 b2 = .cpy (.mem (.zp b1)) ∧
    decodeBytes 0xCC b1 b2 = .cpy (.mem (.abs (joinBytes b2 b1))))

/-- R131: `bit` takes Z from A and the operand, N and V from bits 7 and 6 of the operand, and changes nothing else; with
its opcodes. It and `adc`, `sbc`, `clv`, `plp`, `rti` are the only instructions that change V. -/
def Obligations.BitTestReadsMemoryBits : Prop :=
  (∀ (m : MemOperand) (s : State), ∃ t, exec (.bit m) s = .next t ∧
    t.flag .z = decide (s.a &&& s.memRead (effectiveAddr m s) = 0) ∧
    t.flag .n = (s.memRead (effectiveAddr m s)).getLsbD 7 ∧ t.flag .v = (s.memRead (effectiveAddr m s)).getLsbD 6 ∧
    s.flagsKept t [.n, .v, .z] ∧ s.regsKept t [] ∧ s.memKept t [] ∧ s.wentOn t m.mode.len) ∧
  (∀ b1 b2 : Byte,
    decodeBytes 0x24 b1 b2 = .bit (.zp b1) ∧ decodeBytes 0x2C b1 b2 = .bit (.abs (joinBytes b2 b1))) ∧
  (∀ (i : Instr) (s t : State), exec i s = .next t → t.flag .v ≠ s.flag .v →
    i ∈ [Instr.clv, Instr.plp, Instr.rti] ∨ (∃ o, i = .adc o ∨ i = .sbc o) ∨ ∃ m, i = .bit m)

/-- R141, R142: `asl` and `lsr` move the operand by one bit, the bit shifted out going to C, in A or in memory
(`shiftTook`); with the opcodes of every form. Derived: that the Implicit form works on A is the spec's own decision
(92_eei_decisions.md D17; log entry 7). -/
def Obligations.ShiftsMoveOneBit : Prop :=
  (∀ (o : ShiftOperand) (s : State), ∃ t r, exec (.asl o) s = .next t ∧ shiftTook o r s t ∧
    r.toNat = 2 * (shiftValue o s).toNat % 256 ∧ t.flag .c = (shiftValue o s).getLsbD 7 ∧ t.showsNZ r ∧
    s.flagsKept t [.n, .z, .c] ∧ s.wentOn t o.mode.len) ∧
  (∀ (o : ShiftOperand) (s : State), ∃ t r, exec (.lsr o) s = .next t ∧ shiftTook o r s t ∧
    r.toNat = (shiftValue o s).toNat / 2 ∧ t.flag .c = (shiftValue o s).getLsbD 0 ∧ t.showsNZ r ∧
    t.flag .n = false ∧ s.flagsKept t [.n, .z, .c] ∧ s.wentOn t o.mode.len) ∧
  (∀ b1 b2 : Byte,
    decodeBytes 0x0A b1 b2 = .asl .acc ∧ decodeBytes 0x06 b1 b2 = .asl (.mem (.zp b1)) ∧
    decodeBytes 0x16 b1 b2 = .asl (.mem (.zpx b1)) ∧ decodeBytes 0x0E b1 b2 = .asl (.mem (.abs (joinBytes b2 b1))) ∧
    decodeBytes 0x1E b1 b2 = .asl (.mem (.abx (joinBytes b2 b1))) ∧
    decodeBytes 0x4A b1 b2 = .lsr .acc ∧ decodeBytes 0x46 b1 b2 = .lsr (.mem (.zp b1)) ∧
    decodeBytes 0x56 b1 b2 = .lsr (.mem (.zpx b1)) ∧ decodeBytes 0x4E b1 b2 = .lsr (.mem (.abs (joinBytes b2 b1))) ∧
    decodeBytes 0x5E b1 b2 = .lsr (.mem (.abx (joinBytes b2 b1))))

/-- R143, R144: `rol` and `ror` move the operand by one bit through the carry, in A or in memory (`shiftTook`); with the
opcodes of every form. Derived: that the Implicit form works on A is the spec's own decision (92_eei_decisions.md D17;
log entry 7). -/
def Obligations.RotatesPassThroughCarry : Prop :=
  (∀ (o : ShiftOperand) (s : State), ∃ t r, exec (.rol o) s = .next t ∧ shiftTook o r s t ∧
    256 * (t.flag .c).toNat + r.toNat = 2 * (shiftValue o s).toNat + (s.flag .c).toNat ∧ t.showsNZ r ∧
    s.flagsKept t [.n, .z, .c] ∧ s.wentOn t o.mode.len) ∧
  (∀ (o : ShiftOperand) (s : State), ∃ t r, exec (.ror o) s = .next t ∧ shiftTook o r s t ∧
    2 * r.toNat + (t.flag .c).toNat = 256 * (s.flag .c).toNat + (shiftValue o s).toNat ∧ t.showsNZ r ∧
    s.flagsKept t [.n, .z, .c] ∧ s.wentOn t o.mode.len) ∧
  (∀ b1 b2 : Byte,
    decodeBytes 0x2A b1 b2 = .rol .acc ∧ decodeBytes 0x26 b1 b2 = .rol (.mem (.zp b1)) ∧
    decodeBytes 0x36 b1 b2 = .rol (.mem (.zpx b1)) ∧ decodeBytes 0x2E b1 b2 = .rol (.mem (.abs (joinBytes b2 b1))) ∧
    decodeBytes 0x3E b1 b2 = .rol (.mem (.abx (joinBytes b2 b1))) ∧
    decodeBytes 0x6A b1 b2 = .ror .acc ∧ decodeBytes 0x66 b1 b2 = .ror (.mem (.zp b1)) ∧
    decodeBytes 0x76 b1 b2 = .ror (.mem (.zpx b1)) ∧ decodeBytes 0x6E b1 b2 = .ror (.mem (.abs (joinBytes b2 b1))) ∧
    decodeBytes 0x7E b1 b2 = .ror (.mem (.abx (joinBytes b2 b1))))

/-- R145, R146: `inc` and `dec` change one byte of memory by one modulo 256, N and Z follow it, C and V are kept; with the
opcodes of every form. -/
def Obligations.MemoryIncrementsWrap : Prop :=
  (∀ (m : MemOperand) (s : State), ∃ t, exec (.inc m) s = .next t ∧
    (t.memRead (effectiveAddr m s)).toNat = ((s.memRead (effectiveAddr m s)).toNat + 1) % 256 ∧
    t.showsNZ (t.memRead (effectiveAddr m s)) ∧ s.flagsKept t [.n, .z] ∧ s.regsKept t [] ∧
    s.memKept t [effectiveAddr m s] ∧ s.wentOn t m.mode.len) ∧
  (∀ (m : MemOperand) (s : State), ∃ t, exec (.dec m) s = .next t ∧
    (t.memRead (effectiveAddr m s)).toNat = ((s.memRead (effectiveAddr m s)).toNat + 255) % 256 ∧
    t.showsNZ (t.memRead (effectiveAddr m s)) ∧ s.flagsKept t [.n, .z] ∧ s.regsKept t [] ∧
    s.memKept t [effectiveAddr m s] ∧ s.wentOn t m.mode.len) ∧
  (∀ b1 b2 : Byte,
    decodeBytes 0xE6 b1 b2 = .inc (.zp b1) ∧ decodeBytes 0xF6 b1 b2 = .inc (.zpx b1) ∧
    decodeBytes 0xEE b1 b2 = .inc (.abs (joinBytes b2 b1)) ∧ decodeBytes 0xFE b1 b2 = .inc (.abx (joinBytes b2 b1)) ∧
    decodeBytes 0xC6 b1 b2 = .dec (.zp b1) ∧ decodeBytes 0xD6 b1 b2 = .dec (.zpx b1) ∧
    decodeBytes 0xCE b1 b2 = .dec (.abs (joinBytes b2 b1)) ∧ decodeBytes 0xDE b1 b2 = .dec (.abx (joinBytes b2 b1)))

/-- R147 to R150: `inx`, `iny`, `dex`, `dey` change their register by one modulo 256, N and Z follow it, C and V are kept;
with the opcodes. -/
def Obligations.RegisterIncrementsWrap : Prop :=
  (∀ s : State, ∃ t, exec .inx s = .next t ∧ t.x.toNat = (s.x.toNat + 1) % 256 ∧ t.showsNZ t.x ∧
    s.flagsKept t [.n, .z] ∧ s.regsKept t [.x] ∧ s.memKept t [] ∧ s.wentOn t 1) ∧
  (∀ s : State, ∃ t, exec .iny s = .next t ∧ t.y.toNat = (s.y.toNat + 1) % 256 ∧ t.showsNZ t.y ∧
    s.flagsKept t [.n, .z] ∧ s.regsKept t [.y] ∧ s.memKept t [] ∧ s.wentOn t 1) ∧
  (∀ s : State, ∃ t, exec .dex s = .next t ∧ t.x.toNat = (s.x.toNat + 255) % 256 ∧ t.showsNZ t.x ∧
    s.flagsKept t [.n, .z] ∧ s.regsKept t [.x] ∧ s.memKept t [] ∧ s.wentOn t 1) ∧
  (∀ s : State, ∃ t, exec .dey s = .next t ∧ t.y.toNat = (s.y.toNat + 255) % 256 ∧ t.showsNZ t.y ∧
    s.flagsKept t [.n, .z] ∧ s.regsKept t [.y] ∧ s.memKept t [] ∧ s.wentOn t 1) ∧
  (∀ b1 b2 : Byte, decodeBytes 0xE8 b1 b2 = .inx ∧ decodeBytes 0xC8 b1 b2 = .iny ∧ decodeBytes 0xCA b1 b2 = .dex ∧
    decodeBytes 0x88 b1 b2 = .dey)

/-- R161: `jmp` sets PC to its target and changes nothing else; with its opcodes. Derived: a jump to itself too leaves PC
at the target, and repeats, by the spec's own decision (92_eei_decisions.md D11; log entry 7). -/
def Obligations.JmpGoesToItsTarget : Prop :=
  (∀ (w : Word) (s : State), ∃ t, exec (.jmp (.abs w)) s = .next t ∧ t.pc = w ∧
    s.regsKept t [] ∧ s.flagsKept t [] ∧ s.memKept t []) ∧
  (∀ (w : Word) (s : State), ∃ t, exec (.jmp (.ind w)) s = .next t ∧
    t.pc = joinBytes (s.memRead (w + 1)) (s.memRead w) ∧
    s.regsKept t [] ∧ s.flagsKept t [] ∧ s.memKept t []) ∧
  (∀ s : State, ∃ t, exec (.jmp (.abs s.pc)) s = .next t ∧ s.sameCore t ∧ exec (.jmp (.abs s.pc)) t = .next t) ∧
  (∀ b1 b2 : Byte, decodeBytes 0x4C b1 b2 = .jmp (.abs (joinBytes b2 b1)) ∧
    decodeBytes 0x6C b1 b2 = .jmp (.ind (joinBytes b2 b1)))

/-- `jsr` pushes `pc + 2`, high byte first, and goes to its target. Derived: what is pushed and in which order is the
spec's own decision (92_eei_decisions.md D6, D7; log entry 7). -/
def Obligations.JsrPushesItsLastByteAddress : Prop :=
  (∀ (w : Word) (s : State), ∃ t, exec (.jsr w) s = .next t ∧ t.pc = w ∧
    t.memRead (stackAddr s.sp) = hiByte (s.pc + 2) ∧ t.memRead (stackAddr (s.sp - 1)) = loByte (s.pc + 2) ∧
    t.sp = s.sp - 2 ∧ s.regsKept t [.sp] ∧ s.flagsKept t [] ∧
    s.memKept t [stackAddr s.sp, stackAddr (s.sp - 1)]) ∧
  (∀ b1 b2 : Byte, decodeBytes 0x20 b1 b2 = .jsr (joinBytes b2 b1))

/-- R163: `rts` pulls a word, low byte first, and goes to that word plus 1 modulo 65536; with its opcode. Derived: the
return convention and the order of a pulled word are the spec's own decisions (92_eei_decisions.md D5, D6, D7; log
entry 7). -/
def Obligations.RtsReturnsPastThePulledWord : Prop :=
  (∀ s : State, ∃ t, exec .rts s = .next t ∧
    t.pc = joinBytes (s.memRead (stackAddr (s.sp + 2))) (s.memRead (stackAddr (s.sp + 1))) + 1 ∧
    t.sp = s.sp + 2 ∧ s.regsKept t [.sp] ∧ s.flagsKept t [] ∧ s.memKept t []) ∧
  (∀ b1 b2 : Byte, decodeBytes 0x60 b1 b2 = .rts)

/-- A subroutine that leaves SP and its two stack bytes as `jsr` left them returns to the instruction after the `jsr`,
SP restored. Derived from R162 and R163, whose convention is the spec's own decision (D6, D7; log entry 7). -/
def Obligations.JsrThenRtsReturnsAfterTheCall : Prop :=
  ∀ (w : Word) (s t u : State), exec (.jsr w) s = .next t → u.sp = t.sp →
    u.memRead (stackAddr s.sp) = t.memRead (stackAddr s.sp) →
    u.memRead (stackAddr (s.sp - 1)) = t.memRead (stackAddr (s.sp - 1)) →
    ∃ v, exec .rts u = .next v ∧ v.pc = s.pc + 3 ∧ v.sp = s.sp

/-- R165 to R172: each branch tests one flag; taken it goes to `pc + 2 + sext_16(offset)`, not taken to `pc + 2`; nothing
else changes; with the opcodes. -/
def Obligations.BranchesTestOneFlag : Prop :=
  (∀ (off : Byte) (s : State), ∃ t, exec (.bpl off) s = .next t ∧
    t.pc = (if s.flag .n = false then s.pc + 2 + sext16 off else s.pc + 2) ∧
    s.regsKept t [] ∧ s.flagsKept t [] ∧ s.memKept t []) ∧
  (∀ (off : Byte) (s : State), ∃ t, exec (.bmi off) s = .next t ∧
    t.pc = (if s.flag .n = true then s.pc + 2 + sext16 off else s.pc + 2) ∧
    s.regsKept t [] ∧ s.flagsKept t [] ∧ s.memKept t []) ∧
  (∀ (off : Byte) (s : State), ∃ t, exec (.bvc off) s = .next t ∧
    t.pc = (if s.flag .v = false then s.pc + 2 + sext16 off else s.pc + 2) ∧
    s.regsKept t [] ∧ s.flagsKept t [] ∧ s.memKept t []) ∧
  (∀ (off : Byte) (s : State), ∃ t, exec (.bvs off) s = .next t ∧
    t.pc = (if s.flag .v = true then s.pc + 2 + sext16 off else s.pc + 2) ∧
    s.regsKept t [] ∧ s.flagsKept t [] ∧ s.memKept t []) ∧
  (∀ (off : Byte) (s : State), ∃ t, exec (.bcc off) s = .next t ∧
    t.pc = (if s.flag .c = false then s.pc + 2 + sext16 off else s.pc + 2) ∧
    s.regsKept t [] ∧ s.flagsKept t [] ∧ s.memKept t []) ∧
  (∀ (off : Byte) (s : State), ∃ t, exec (.bcs off) s = .next t ∧
    t.pc = (if s.flag .c = true then s.pc + 2 + sext16 off else s.pc + 2) ∧
    s.regsKept t [] ∧ s.flagsKept t [] ∧ s.memKept t []) ∧
  (∀ (off : Byte) (s : State), ∃ t, exec (.bne off) s = .next t ∧
    t.pc = (if s.flag .z = false then s.pc + 2 + sext16 off else s.pc + 2) ∧
    s.regsKept t [] ∧ s.flagsKept t [] ∧ s.memKept t []) ∧
  (∀ (off : Byte) (s : State), ∃ t, exec (.beq off) s = .next t ∧
    t.pc = (if s.flag .z = true then s.pc + 2 + sext16 off else s.pc + 2) ∧
    s.regsKept t [] ∧ s.flagsKept t [] ∧ s.memKept t []) ∧
  (∀ b1 b2 : Byte,
    decodeBytes 0x10 b1 b2 = .bpl b1 ∧ decodeBytes 0x30 b1 b2 = .bmi b1 ∧ decodeBytes 0x50 b1 b2 = .bvc b1 ∧
    decodeBytes 0x70 b1 b2 = .bvs b1 ∧ decodeBytes 0x90 b1 b2 = .bcc b1 ∧ decodeBytes 0xB0 b1 b2 = .bcs b1 ∧
    decodeBytes 0xD0 b1 b2 = .bne b1 ∧ decodeBytes 0xF0 b1 b2 = .beq b1)

/-- `brk` pushes `pc + 2` and P with B set, sets B and I, and goes to the word at 0xFFFE. Derived: the whole sequence is
the spec's own decision (92_eei_decisions.md D8; log entry 6). -/
def Obligations.BrkEntersThroughItsVector : Prop :=
  (∀ s : State, ∃ t, exec .brk s = .next t ∧ t.pc = joinBytes (s.memRead 0xFFFF) (s.memRead 0xFFFE) ∧
    t.memRead (stackAddr s.sp) = hiByte (s.pc + 2) ∧ t.memRead (stackAddr (s.sp - 1)) = loByte (s.pc + 2) ∧
    (∀ f, readFlag (t.memRead (stackAddr (s.sp - 2))) f = if f = .b then true else s.flag f) ∧
    t.flag .b = true ∧ t.flag .i = true ∧ s.flagsKept t [.b, .i] ∧ t.sp = s.sp - 3 ∧ s.regsKept t [.sp] ∧
    s.memKept t [stackAddr s.sp, stackAddr (s.sp - 1), stackAddr (s.sp - 2)]) ∧
  (∀ b1 b2 : Byte, decodeBytes 0x00 b1 b2 = .brk)

/-- `rti` pulls all eight bits of P, then PC, with nothing added. Derived: the sequence is the spec's own decision
(92_eei_decisions.md D8, D18; log entries 6 and 7). -/
def Obligations.RtiRestoresStatusAndPC : Prop :=
  (∀ s : State, ∃ t, exec .rti s = .next t ∧ t.p = s.memRead (stackAddr (s.sp + 1)) ∧
    t.pc = joinBytes (s.memRead (stackAddr (s.sp + 3))) (s.memRead (stackAddr (s.sp + 2))) ∧
    t.sp = s.sp + 3 ∧ s.regsKept t [.sp] ∧ s.memKept t []) ∧
  (∀ b1 b2 : Byte, decodeBytes 0x40 b1 b2 = .rti)

/-- A break handler that leaves SP and the three pushed bytes as `brk` left them returns two bytes past the `brk`, with
every flag as before it but B, which is 1. Derived from R173, R174 and R207, the spec's own decision (D8; log entry 6). -/
def Obligations.BrkThenRtiReturns : Prop :=
  ∀ s t u : State, exec .brk s = .next t → u.sp = t.sp →
    (∀ b, b ∈ [stackAddr s.sp, stackAddr (s.sp - 1), stackAddr (s.sp - 2)] → u.memRead b = t.memRead b) →
    ∃ v, exec .rti u = .next v ∧ v.pc = s.pc + 2 ∧ v.sp = s.sp ∧ v.flag .b = true ∧ s.flagsKept v [.b]

/-- R180: `pha` stores A at the slot SP names and decrements SP; nothing else changes; with its opcode. -/
def Obligations.PhaPushesTheAccumulator : Prop :=
  (∀ s : State, ∃ t, exec .pha s = .next t ∧ t.memRead (stackAddr s.sp) = s.a ∧
    t.sp.toNat = (s.sp.toNat + 255) % 256 ∧ s.regsKept t [.sp] ∧ s.flagsKept t [] ∧
    s.memKept t [stackAddr s.sp] ∧ s.wentOn t 1) ∧
  (∀ b1 b2 : Byte, decodeBytes 0x48 b1 b2 = .pha)

/-- `php` pushes all eight bits of P as stored, and `plp` replaces all eight by the pulled byte. Derived: raw P both
ways is the spec's own decision (92_eei_decisions.md D18, D5; log entry 7). -/
def Obligations.StatusPushAndPullAreRaw : Prop :=
  (∀ s : State, ∃ t, exec .php s = .next t ∧ t.memRead (stackAddr s.sp) = s.p ∧
    t.sp.toNat = (s.sp.toNat + 255) % 256 ∧ s.regsKept t [.sp] ∧ s.flagsKept t [] ∧
    s.memKept t [stackAddr s.sp] ∧ s.wentOn t 1) ∧
  (∀ s : State, ∃ t, exec .plp s = .next t ∧ t.p = s.memRead (stackAddr (s.sp + 1)) ∧
    t.sp.toNat = (s.sp.toNat + 1) % 256 ∧ s.regsKept t [.sp] ∧ s.memKept t [] ∧ s.wentOn t 1) ∧
  (∀ b1 b2 : Byte, decodeBytes 0x08 b1 b2 = .php ∧ decodeBytes 0x28 b1 b2 = .plp)

/-- R182: `pla` increments SP, loads A from the slot it then names, and sets N and Z; with its opcode. Derived: the pull
and the flags are the spec's own (92_eei_decisions.md D5, D20; log entry 7). -/
def Obligations.PlaPullsTheAccumulator : Prop :=
  (∀ s : State, ∃ t, exec .pla s = .next t ∧ t.a = s.memRead (stackAddr (s.sp + 1)) ∧
    t.sp.toNat = (s.sp.toNat + 1) % 256 ∧ t.showsNZ t.a ∧ s.flagsKept t [.n, .z] ∧ s.regsKept t [.a, .sp] ∧
    s.memKept t [] ∧ s.wentOn t 1) ∧
  (∀ b1 b2 : Byte, decodeBytes 0x68 b1 b2 = .pla)

/-- `php` and then `plp`, with anything between that keeps SP and the pushed byte, leave P and SP as they were. Derived
from R181 and R183, whose raw P is the spec's own decision (D18; log entry 7). -/
def Obligations.PhpThenPlpRestoresStatus : Prop :=
  ∀ s t u : State, exec .php s = .next t → u.sp = t.sp →
    u.memRead (stackAddr s.sp) = t.memRead (stackAddr s.sp) →
    ∃ v, exec .plp u = .next v ∧ v.p = s.p ∧ v.sp = s.sp

/-- R184 to R190: each flag instruction writes its one flag and changes nothing else; with the opcodes. -/
def Obligations.FlagInstructionsWriteOneBit : Prop :=
  (∀ s : State, ∃ t, exec .clc s = .next t ∧ t.flag .c = false ∧ s.flagsKept t [.c] ∧ s.regsKept t [] ∧
    s.memKept t [] ∧ s.wentOn t 1) ∧
  (∀ s : State, ∃ t, exec .sec s = .next t ∧ t.flag .c = true ∧ s.flagsKept t [.c] ∧ s.regsKept t [] ∧
    s.memKept t [] ∧ s.wentOn t 1) ∧
  (∀ s : State, ∃ t, exec .cli s = .next t ∧ t.flag .i = false ∧ s.flagsKept t [.i] ∧ s.regsKept t [] ∧
    s.memKept t [] ∧ s.wentOn t 1) ∧
  (∀ s : State, ∃ t, exec .sei s = .next t ∧ t.flag .i = true ∧ s.flagsKept t [.i] ∧ s.regsKept t [] ∧
    s.memKept t [] ∧ s.wentOn t 1) ∧
  (∀ s : State, ∃ t, exec .cld s = .next t ∧ t.flag .d = false ∧ s.flagsKept t [.d] ∧ s.regsKept t [] ∧
    s.memKept t [] ∧ s.wentOn t 1) ∧
  (∀ s : State, ∃ t, exec .sed s = .next t ∧ t.flag .d = true ∧ s.flagsKept t [.d] ∧ s.regsKept t [] ∧
    s.memKept t [] ∧ s.wentOn t 1) ∧
  (∀ s : State, ∃ t, exec .clv s = .next t ∧ t.flag .v = false ∧ s.flagsKept t [.v] ∧ s.regsKept t [] ∧
    s.memKept t [] ∧ s.wentOn t 1) ∧
  (∀ b1 b2 : Byte,
    decodeBytes 0x18 b1 b2 = .clc ∧ decodeBytes 0x38 b1 b2 = .sec ∧ decodeBytes 0x58 b1 b2 = .cli ∧
    decodeBytes 0x78 b1 b2 = .sei ∧ decodeBytes 0xD8 b1 b2 = .cld ∧ decodeBytes 0xF8 b1 b2 = .sed ∧
    decodeBytes 0xB8 b1 b2 = .clv)

/-- R191: `nop` changes nothing but PC, which advances by 1; the step's only transaction is the opcode fetch; and it is
the only assigned opcode byte that does nothing whatever its operand and the state; with its opcode. -/
def Obligations.NopOnlyAdvances : Prop :=
  (∀ s : State, ∃ t, exec .nop s = .next t ∧ s.sameCore (t.setPC s.pc) ∧ s.wentOn t 1) ∧
  (∀ s : State, fetchInstr s = .nop → stepTransactions s = [.read s.pc (s.memRead s.pc)]) ∧
  (∀ op : Byte, op ∉ invalidBytes →
    (∀ (b1 b2 : Byte) (s t : State), exec (decodeBytes op b1 b2) s = .next t →
      s.sameCore (t.setPC s.pc) ∧ t.pc = s.pc + BitVec.ofNat 16 (opcodeLen op)) → op = 0xEA) ∧
  (∀ b1 b2 : Byte, decodeBytes 0xEA b1 b2 = .nop)

/-- The decode failure: nothing of the core changes, PC included, and the result port reports the error. Derived: that
it is a next state, and 0 bytes consumed, are choices (log entry 3; 92_eei_decisions.md D10); the rest is R200. -/
def Obligations.DecodeFailureChangesNothing : Prop :=
  ∀ (op : Byte) (s : State), ∃ t, exec (.invalid op) s = .next t ∧ s.sameCore t ∧ s.regsKept t [] ∧
    s.flagsKept t [] ∧ s.memKept t [] ∧ t.pc = s.pc ∧
    t.result = some { bytesConsumed := 0, error := some .unimplementedOpcode }

/-- R201: at an Invalid byte `Execute` reports the same failure for ever and changes nothing; the step makes one
transaction, the opcode read (R45). A host write of PC moves it, memory kept, and a hard reset leaves what it would have
left before the failure. Derived, with log entry 3. -/
def Obligations.DecodeFailureRepeatsUntilTheHostActs : Prop :=
  ∀ s : State, s.memRead s.pc ∈ invalidBytes →
    stepTransactions s = [.read s.pc (s.memRead s.pc)] ∧
    ∃ t, step s = .next t ∧ s.sameCore t ∧ step t = .next t ∧
      (∀ w : Word, (hostWrite (.pc w) t).pc = w ∧ s.memKept (hostWrite (.pc w) t) []) ∧ t.hardReset = s.hardReset

/-- R91: a push writes the slot SP names and then decrements SP modulo 256; the slot lies in 0x0100 to 0x01FF for every
SP (R40), and at SP = 0 the push writes 0x0100 and leaves SP = 0xFF. -/
def Obligations.PushWritesInTheStackPage : Prop :=
  (∀ sp : Byte, (stackAddr sp).toNat = 256 + sp.toNat) ∧
  (∀ (s : State) (v : Byte), (s.push v).memRead (stackAddr s.sp) = v ∧ s.memKept (s.push v) [stackAddr s.sp] ∧
    (s.push v).sp.toNat = (s.sp.toNat + 255) % 256 ∧ s.regsKept (s.push v) [.sp] ∧ s.flagsKept (s.push v) []) ∧
  (∀ (s : State) (v : Byte), s.sp = 0 → (s.push v).memRead 0x0100 = v ∧ (s.push v).sp = 0xFF)

/-- A pull after a push returns the byte and restores SP, and a pulled word is the pushed word. Derived: the pull is the
push's inverse, and the byte order of words, by the spec's own decisions (D5, D6; log entry 7). -/
def Obligations.PullInvertsPush : Prop :=
  (∀ (s : State) (v : Byte), (s.push v).pullValue = v ∧ (s.push v).pulled.sp = s.sp) ∧
  (∀ (s : State) (w : Word), (s.pushWord w).pullWordValue = w ∧ (s.pushWord w).pulledWord.sp = s.sp)

/-- R78 to R86: the effective address of every memory mode and of the indirect jump, in exact arithmetic on the bytes of
memory; zero-page sums wrap modulo 256, the others modulo 65536, and a pointer word is the plain word read. -/
def Obligations.EffectiveAddressFormulas : Prop :=
  ∀ (s : State) (b : Byte) (w : Word),
    (effectiveAddr (.zp b) s).toNat = b.toNat ∧
    (effectiveAddr (.zpx b) s).toNat = (b.toNat + s.x.toNat) % 256 ∧
    (effectiveAddr (.zpy b) s).toNat = (b.toNat + s.y.toNat) % 256 ∧
    effectiveAddr (.abs w) s = w ∧
    (effectiveAddr (.abx w) s).toNat = (w.toNat + s.x.toNat) % 65536 ∧
    (effectiveAddr (.aby w) s).toNat = (w.toNat + s.y.toNat) % 65536 ∧
    (effectiveAddr (.izx b) s).toNat =
      (s.mem.peek ((b.toNat + s.x.toNat) % 256)).toNat + 256 * (s.mem.peek ((b.toNat + s.x.toNat) % 256 + 1)).toNat ∧
    (effectiveAddr (.izy b) s).toNat =
      ((s.mem.peek b.toNat).toNat + 256 * (s.mem.peek (b.toNat + 1)).toNat + s.y.toNat) % 65536 ∧
    jumpTarget (.abs w) s = w ∧
    (jumpTarget (.ind w) s).toNat =
      (s.mem.peek w.toNat).toNat + 256 * (s.mem.peek ((w.toNat + 1) % 65536)).toNat

/-- R55, R87: the branch target is the address of the next instruction plus the signed operand byte, modulo 65536. -/
def Obligations.RelativeTargetFormula : Prop :=
  ∀ (off : Byte) (s : State),
    ((branchTarget off s).toNat : Int) = ((s.pc.toNat : Int) + 2 + (if off.toNat < 128 then (off.toNat : Int) else (off.toNat : Int) - 256)) % 65536 ∧
    branchTarget 0x00 s = s.pc + 2 ∧ branchTarget 0xFE s = s.pc ∧ branchTarget 0x7F s = s.pc + 129 ∧
    branchTarget 0x80 s = s.pc - 126

/-- R35: a word read is the byte at the address and, as bits 15:8, the byte at the next address modulo 65536; a word
write stores the two bytes there, and nowhere else. -/
def Obligations.WordAccessIsLittleEndian : Prop :=
  ∀ (m : Memory) (addr w b : Word),
    (m.readWord addr).toNat = (m.peek addr.toNat).toNat + 256 * (m.peek ((addr.toNat + 1) % 65536)).toNat ∧
    (m.writeWord addr w).readWord addr = w ∧
    (b ≠ addr → b ≠ addr + 1 → (m.writeWord addr w).read b = m.read b)

/-- R46: the reference platform's memory returns the byte last written at an address, by the core or by the host, and a
write leaves every other address alone. Derived: that this platform stands behind the port is log entry 2. -/
def Obligations.MemoryIsPlainRam : Prop :=
  ∀ (s : State) (addr b : Word) (v : Byte),
    ((s.memWrite addr v).memRead b = if b = addr then v else s.memRead b) ∧
    ((hostWrite (.mem addr v) s).memRead b = if b = addr then v else s.memRead b)

/-- R44: a byte that `sta` stores is the byte the next step fetches, as opcode or as operand, with nothing needed
between. -/
def Obligations.StoreIsSeenByTheNextFetch : Prop :=
  ∀ (m : MemOperand) (s : State), ∃ t, exec (.sta m) s = .next t ∧
    (effectiveAddr m s = t.pc → step t = exec (decodeBytes s.a (s.memRead (t.pc + 1)) (s.memRead (t.pc + 2))) t) ∧
    (effectiveAddr m s = t.pc + 1 → step t = exec (decodeBytes (s.memRead t.pc) s.a (s.memRead (t.pc + 2))) t) ∧
    (effectiveAddr m s = t.pc + 2 → step t = exec (decodeBytes (s.memRead t.pc) (s.memRead (t.pc + 1)) s.a) t)

/-- R77: an immediate value of the fetched instruction is the byte at `pc + 1`, the Immediate mode's effective address. -/
def Obligations.ImmediateIsTheOperandByte : Prop :=
  ∀ (s : State) (v : Byte) (f : ReadOperand → Instr),
    f ∈ [Instr.lda, Instr.ldx, Instr.ldy, Instr.adc, Instr.sbc, Instr.and, Instr.ora, Instr.eor, Instr.cmp, Instr.cpx,
      Instr.cpy] → fetchInstr s = f (.imm v) → v = s.memRead (s.pc + 1)

/-- Decoding the encoding of any well-formed instruction gives it back, at every operand value, and the bytes after it
are left over (R50, R53, R54, R57, R58). -/
def Obligations.DecodeOfEncodeIsTheInstruction : Prop :=
  ∀ i : Instr, i.wellFormed = true →
    ∃ bs, encode i = some bs ∧ ∀ rest, decode (bs ++ rest) = .instr i rest

/-- Whatever the decoder reads is a well-formed instruction whose encoding is exactly the bytes it took: each byte string
has one meaning, and every assigned byte decodes to an instruction that exists (R50, R56, R59). -/
def Obligations.EncodeOfDecodeIsTheBytes : Prop :=
  ∀ (bs rest : List Byte) (i : Instr), decode bs = .instr i rest →
    i.wellFormed = true ∧ ∃ used, encode i = some used ∧ bs = used ++ rest ∧ used.length = i.len

/-- R56: no two assigned opcode bytes have the same mnemonic and mode. -/
def Obligations.OpcodePairsAreDistinct : Prop :=
  ∀ op op' : Byte, op ∉ invalidBytes → op' ∉ invalidBytes →
    (decodeBytes op 0 0).mnemonicText = (decodeBytes op' 0 0).mnemonicText → opcodeMode op = opcodeMode op' → op = op'

/-- R59: the bytes that decode to the decode failure are exactly the 105 listed, whatever follows them, and each decodes
to the failure of its own byte. -/
def Obligations.InvalidBytesAreExactlyTheListed : Prop :=
  invalidBytes.length = 105 ∧
  (∀ op b1 b2 : Byte, isInvalid (decodeBytes op b1 b2) = decide (op ∈ invalidBytes)) ∧
  (∀ op b1 b2 : Byte, op ∈ invalidBytes → decodeBytes op b1 b2 = .invalid op)

/-- A few words written out from R57, R58 and R61 decode to the instructions they stand for. -/
def Obligations.SpecWordsDecode : Prop :=
  decode [0xA9, 0x05] = .instr (.lda (.imm 0x05)) [] ∧ decode [0x96, 0xFF] = .instr (.stx (.zpy 0xFF)) [] ∧
  decode [0x7D, 0x34, 0x12] = .instr (.adc (.mem (.abx 0x1234))) [] ∧ decode [0x6A] = .instr (.ror .acc) [] ∧
  decode [0x6C, 0x34, 0x12] = .instr (.jmp (.ind 0x1234)) [] ∧ decode [0xD0, 0xFD, 0xEA] = .instr (.bne 0xFD) [0xEA] ∧
  decode [0x28] = .instr .plp [] ∧ decode [0xFF] = .instr (.invalid 0xFF) [] ∧ decode [0xAD, 0x34] = .truncated 0xAD

/-- R66: text and instruction determine each other: reading the canonical text of any well-formed instruction but an
Invalid byte gives the instruction back. Derived: the spelling is the spec's own decision (D19; log entry 13). -/
def Obligations.TextDeterminesTheInstruction : Prop :=
  ∀ i : Instr, i.wellFormed = true → isInvalid i = false → parseText i.text = some i

/-- R70: a step is the execution of the instruction the bytes at PC decode to, for every well-formed or Invalid
instruction; PC still holds the address of its opcode byte (R14). The model's step adds nothing around `exec`. -/
def Obligations.StepRunsTheDecodedInstruction : Prop :=
  ∀ (s : State) (i : Instr) (rest : List Byte),
    decode [s.memRead s.pc, s.memRead (s.pc + 1), s.memRead (s.pc + 2)] = .instr i rest → step s = exec i s

/-- R32, R202, R232: no instruction, step or host action faults or is refused: each answers a next state from every
state. Derived, since that the decode failure too is a next state is log entry 3. -/
def Obligations.EveryStepAnswersANextState : Prop :=
  (∀ (i : Instr) (s : State), ∃ t, exec i s = .next t) ∧ (∀ s : State, ∃ t, step s = .next t) ∧
  (∀ (h : HostAction) (s : State), ∃ t, hostAct h s = .next t)

/-- The invariant: every step keeps the memory's canonical form and leaves a legal report. -/
def Obligations.EveryStepKeepsGoodStates : Prop :=
  ∀ s t : State, s.good = true → step s = .next t → t.good = true

/-- The state after reset meets the invariant. -/
def Obligations.ResetStateIsGood : Prop := State.reset.good = true

/-- Any run the host chooses, of commands and of writes between them, completes and keeps the invariant; a decode
failure on the way does not end it (R201, R209, R241). Derived, with log entry 3. -/
def Obligations.HostRunsCompleteAndKeepGoodStates : Prop :=
  ∀ (hs : List HostAction) (s : State), s.good = true → ∃ t, hostRun hs s = .next t ∧ t.good = true

/-- R230: `SoftReset` loads PC from the little-endian word at 0xFFFC and sets I; A, X, Y, SP, the other bits of P and
memory are kept; its two transactions are the reads of the vector's bytes. -/
def Obligations.SoftResetLoadsTheVector : Prop :=
  ∀ s : State, runCommand .softReset s = .next s.softReset ∧
    s.softReset.pc = joinBytes (s.memRead 0xFFFD) (s.memRead 0xFFFC) ∧ s.softReset.flag .i = true ∧
    s.flagsKept s.softReset [.i] ∧ s.regsKept s.softReset [] ∧ s.memKept s.softReset [] ∧
    (commandTransactions .softReset s).length = 2 ∧
    ∀ x, x ∈ commandTransactions .softReset s →
      x = .read 0xFFFC (s.memRead 0xFFFC) ∨ x = .read 0xFFFD (s.memRead 0xFFFD)

/-- `HardReset` zeroes A, X, Y, sets SP to 0xFF, clears P and performs the soft reset, from any state; memory is kept.
Derived: the flags' baseline 0x00 is the spec's own decision (92_eei_decisions.md D4; log entry 6). -/
def Obligations.HardResetSetsEveryRegister : Prop :=
  ∀ s : State, runCommand .hardReset s = .next s.hardReset ∧
    s.hardReset.a = 0x00 ∧ s.hardReset.x = 0x00 ∧ s.hardReset.y = 0x00 ∧ s.hardReset.sp = 0xFF ∧
    s.hardReset.p = 0x04 ∧ s.hardReset.pc = joinBytes (s.memRead 0xFFFD) (s.memRead 0xFFFC) ∧
    s.memKept s.hardReset []

/-- R232: both resets are total and idempotent; each reads the two bytes of the vector and makes no other transaction.
Derived: R232 marks the first as its own inference, and the order of the two reads is D21 (log entry 7). -/
def Obligations.ResetsAreIdempotent : Prop :=
  (∀ s : State, s.softReset.softReset = s.softReset ∧ s.hardReset.hardReset = s.hardReset) ∧
  (∀ s : State, (∃ t, runCommand .softReset s = .next t) ∧ (∃ t, runCommand .hardReset s = .next t)) ∧
  (∀ s : State, commandTransactions .softReset s = [.read 0xFFFC (s.memRead 0xFFFC), .read 0xFFFD (s.memRead 0xFFFD)] ∧
    commandTransactions .hardReset s = [.read 0xFFFC (s.memRead 0xFFFC), .read 0xFFFD (s.memRead 0xFFFD)])

/-- `State.reset` is what `HardReset` leaves from any power-on registers over a memory that lists nothing (R27, R28). The
listed memory is the model's choice, log entries 1 and 5. -/
def Obligations.ResetStateIsAfterHardReset : Prop :=
  ∀ s : State, s.mem = [] → s.hardReset = State.reset

/-- R210, R211: a host write is what the next read sees, takes effect at once, and changes nothing but the register,
flag or byte it names; host reads of the other registers answer as before. -/
def Obligations.HostWritesChangeOneThing : Prop :=
  ∀ (s : State) (v : Byte) (w : Word) (f : NamedFlag) (on : Bool),
    (hostRead .a (hostWrite (.a v) s) = .byte v ∧ s.regsKept (hostWrite (.a v) s) [.a] ∧
      (hostWrite (.a v) s).setA s.a = s) ∧
    (hostRead .x (hostWrite (.x v) s) = .byte v ∧ s.regsKept (hostWrite (.x v) s) [.x] ∧
      (hostWrite (.x v) s).setX s.x = s) ∧
    (hostRead .y (hostWrite (.y v) s) = .byte v ∧ s.regsKept (hostWrite (.y v) s) [.y] ∧
      (hostWrite (.y v) s).setY s.y = s) ∧
    (hostRead .sp (hostWrite (.sp v) s) = .byte v ∧ s.regsKept (hostWrite (.sp v) s) [.sp] ∧
      (hostWrite (.sp v) s).setSP s.sp = s) ∧
    (hostRead .pc (hostWrite (.pc w) s) = .word w ∧ (hostWrite (.pc w) s).setPC s.pc = s) ∧
    (hostRead (.flag f) (hostWrite (.flag f on) s) = .bit on ∧ s.flagsKept (hostWrite (.flag f on) s) [f.flag] ∧
      (hostWrite (.flag f on) s).setP s.p = s) ∧
    (hostRead .status (hostWrite (.status v) s) = .byte v ∧ (hostWrite (.status v) s).setP s.p = s) ∧
    (hostRead (.mem w) (hostWrite (.mem w v) s) = .byte v ∧ s.memKept (hostWrite (.mem w v) s) [w] ∧
      s.regsKept (hostWrite (.mem w v) s) [] ∧ s.flagsKept (hostWrite (.mem w v) s) [] ∧
      (hostWrite (.mem w v) s).pc = s.pc)

/-- The result port's last answer is never read: a step from two states that differ only in it gives the same outcome, and
so do the resets. Derived from R8 and R26; the field is the model's own (log entry 4). -/
def Obligations.ResultPortIsNeverRead : Prop :=
  ∀ (s : State) (r : Option Report),
    step (s.setResult r) = step s ∧ (s.setResult r).softReset = s.softReset ∧ (s.setResult r).hardReset = s.hardReset

/-- The result port reports the length of the executed instruction, jumps and taken branches included, and 0 with the
error on the decode failure. Derived: both conventions are the spec's own decision (92_eei_decisions.md D10; log entry 7). -/
def Obligations.ReportIsTheInstructionLength : Prop :=
  (∀ s t : State, step s = .next t →
    (s.memRead s.pc ∉ invalidBytes → t.result = some { bytesConsumed := opcodeLen (s.memRead s.pc), error := none }) ∧
    (s.memRead s.pc ∈ invalidBytes → t.result = some { bytesConsumed := 0, error := some .unimplementedOpcode })) ∧
  (∀ (i : Instr) (s t : State), isInvalid i = false → exec i s = .next t →
    t.result = some { bytesConsumed := i.len, error := none })

/-- U, B, D and I have no effect on any operation: changing one of them beforehand changes nothing of what an instruction
does but that bit itself, unless the instruction writes the bit or moves P whole to or from the stack. Derived from R20
to R23 and R122, the spec's own decisions (D3, D8, D9, D24; log entries 6 and 7). -/
def Obligations.StoredFlagsHaveNoEffect : Prop :=
  ∀ (f : Flag) (i : Instr) (s t : State) (on : Bool), f ∈ [Flag.u, Flag.b, Flag.d, Flag.i] →
    f ∉ flagsWritten i → i ≠ .php → i ≠ .brk → exec i s = .next t → exec i (s.setFlag f on) = .next (t.setFlag f on)

/-- Every instruction leaves every flag that R25's table does not name for it. Derived: the table is the spec's own
summary of the instruction rules. -/
def Obligations.FlagsChangeOnlyAsTabled : Prop :=
  ∀ (i : Instr) (s t : State), exec i s = .next t → s.flagsKept t (flagsWritten i)

/-- A, X, Y and SP are changed only by the instructions R11, R12 and R13 name. Derived: the lists are the spec's own
summary of the instruction rules. -/
def Obligations.RegistersChangeOnlyByTheirWriters : Prop :=
  ∀ (i : Instr) (s t : State), exec i s = .next t → s.regsKept t (regsWritten i)

/-- Memory changes only at the addresses R45's table has the instruction write, computed as the meanings compute them,
and the stack instructions write in 0x0100 to 0x01FF only (R31, R40). Derived: the table is the spec's own summary. -/
def Obligations.MemoryChangesOnlyWhereStored : Prop :=
  (∀ (i : Instr) (s t : State), exec i s = .next t → s.memKept t (storedAddrs i s)) ∧
  (∀ (i : Instr) (s : State) (b : Word), i ∈ [Instr.pha, Instr.php, Instr.brk] ∨ (∃ w, i = .jsr w) →
    b ∈ storedAddrs i s → 0x0100 ≤ b.toNat ∧ b.toNat ≤ 0x01FF)

/-- R15: every instruction but jumps, calls, returns, `brk`, branches and the decode failure advances PC by its length
modulo 65536, and a branch either does or goes to its target. Derived: the wrap is the spec's own decision (D13; log
entry 7). -/
def Obligations.PcAdvancesUnlessSet : Prop :=
  (∀ (i : Instr) (s t : State), mayLeaveSequence i = false → exec i s = .next t →
    t.pc.toNat = (s.pc.toNat + i.len) % 65536) ∧
  (∀ (i : Instr) (off : Byte) (s t : State),
    i ∈ [.bpl off, .bmi off, .bvc off, .bvs off, .bcc off, .bcs off, .bne off, .beq off] → exec i s = .next t →
    t.pc.toNat = (s.pc.toNat + i.len) % 65536 ∨ t.pc = branchTarget off s)

/-- The transactions R45 lists for a step, made one after the other on the memory before it, fit every read and leave
exactly the memory after it; the first is the opcode read at PC. Derived: the list is the spec's own summary and the
order inside a routine its own decision (D12, D21; log entry 10). -/
def Obligations.TransactionsReplayTheStep : Prop :=
  ∀ s t : State, step s = .next t →
    replay s.mem (stepTransactions s) = some t.mem ∧
    (stepTransactions s).head? = some (.read s.pc (s.memRead s.pc))
end

