-- ==== Sys2Proof/Laws/State.lean ====
section
/-! SUPPORT. One lemma per field per update of the state, all true by rfl, so that no proof unfolds a record update. -/

namespace Sys2Proof.Machine

@[simp] theorem State.setA_a (s : State) (v : Byte) : (s.setA v).a = v := rfl
@[simp] theorem State.setA_x (s : State) (v : Byte) : (s.setA v).x = s.x := rfl
@[simp] theorem State.setA_y (s : State) (v : Byte) : (s.setA v).y = s.y := rfl
@[simp] theorem State.setA_sp (s : State) (v : Byte) : (s.setA v).sp = s.sp := rfl
@[simp] theorem State.setA_pc (s : State) (v : Byte) : (s.setA v).pc = s.pc := rfl
@[simp] theorem State.setA_p (s : State) (v : Byte) : (s.setA v).p = s.p := rfl
@[simp] theorem State.setA_mem (s : State) (v : Byte) : (s.setA v).mem = s.mem := rfl
@[simp] theorem State.setA_result (s : State) (v : Byte) : (s.setA v).result = s.result := rfl

@[simp] theorem State.setX_a (s : State) (v : Byte) : (s.setX v).a = s.a := rfl
@[simp] theorem State.setX_x (s : State) (v : Byte) : (s.setX v).x = v := rfl
@[simp] theorem State.setX_y (s : State) (v : Byte) : (s.setX v).y = s.y := rfl
@[simp] theorem State.setX_sp (s : State) (v : Byte) : (s.setX v).sp = s.sp := rfl
@[simp] theorem State.setX_pc (s : State) (v : Byte) : (s.setX v).pc = s.pc := rfl
@[simp] theorem State.setX_p (s : State) (v : Byte) : (s.setX v).p = s.p := rfl
@[simp] theorem State.setX_mem (s : State) (v : Byte) : (s.setX v).mem = s.mem := rfl
@[simp] theorem State.setX_result (s : State) (v : Byte) : (s.setX v).result = s.result := rfl

@[simp] theorem State.setY_a (s : State) (v : Byte) : (s.setY v).a = s.a := rfl
@[simp] theorem State.setY_x (s : State) (v : Byte) : (s.setY v).x = s.x := rfl
@[simp] theorem State.setY_y (s : State) (v : Byte) : (s.setY v).y = v := rfl
@[simp] theorem State.setY_sp (s : State) (v : Byte) : (s.setY v).sp = s.sp := rfl
@[simp] theorem State.setY_pc (s : State) (v : Byte) : (s.setY v).pc = s.pc := rfl
@[simp] theorem State.setY_p (s : State) (v : Byte) : (s.setY v).p = s.p := rfl
@[simp] theorem State.setY_mem (s : State) (v : Byte) : (s.setY v).mem = s.mem := rfl
@[simp] theorem State.setY_result (s : State) (v : Byte) : (s.setY v).result = s.result := rfl

@[simp] theorem State.setSP_a (s : State) (v : Byte) : (s.setSP v).a = s.a := rfl
@[simp] theorem State.setSP_x (s : State) (v : Byte) : (s.setSP v).x = s.x := rfl
@[simp] theorem State.setSP_y (s : State) (v : Byte) : (s.setSP v).y = s.y := rfl
@[simp] theorem State.setSP_sp (s : State) (v : Byte) : (s.setSP v).sp = v := rfl
@[simp] theorem State.setSP_pc (s : State) (v : Byte) : (s.setSP v).pc = s.pc := rfl
@[simp] theorem State.setSP_p (s : State) (v : Byte) : (s.setSP v).p = s.p := rfl
@[simp] theorem State.setSP_mem (s : State) (v : Byte) : (s.setSP v).mem = s.mem := rfl
@[simp] theorem State.setSP_result (s : State) (v : Byte) : (s.setSP v).result = s.result := rfl

@[simp] theorem State.setPC_a (s : State) (v : Word) : (s.setPC v).a = s.a := rfl
@[simp] theorem State.setPC_x (s : State) (v : Word) : (s.setPC v).x = s.x := rfl
@[simp] theorem State.setPC_y (s : State) (v : Word) : (s.setPC v).y = s.y := rfl
@[simp] theorem State.setPC_sp (s : State) (v : Word) : (s.setPC v).sp = s.sp := rfl
@[simp] theorem State.setPC_pc (s : State) (v : Word) : (s.setPC v).pc = v := rfl
@[simp] theorem State.setPC_p (s : State) (v : Word) : (s.setPC v).p = s.p := rfl
@[simp] theorem State.setPC_mem (s : State) (v : Word) : (s.setPC v).mem = s.mem := rfl
@[simp] theorem State.setPC_result (s : State) (v : Word) : (s.setPC v).result = s.result := rfl

@[simp] theorem State.setP_a (s : State) (v : Byte) : (s.setP v).a = s.a := rfl
@[simp] theorem State.setP_x (s : State) (v : Byte) : (s.setP v).x = s.x := rfl
@[simp] theorem State.setP_y (s : State) (v : Byte) : (s.setP v).y = s.y := rfl
@[simp] theorem State.setP_sp (s : State) (v : Byte) : (s.setP v).sp = s.sp := rfl
@[simp] theorem State.setP_pc (s : State) (v : Byte) : (s.setP v).pc = s.pc := rfl
@[simp] theorem State.setP_p (s : State) (v : Byte) : (s.setP v).p = v := rfl
@[simp] theorem State.setP_mem (s : State) (v : Byte) : (s.setP v).mem = s.mem := rfl
@[simp] theorem State.setP_result (s : State) (v : Byte) : (s.setP v).result = s.result := rfl

@[simp] theorem State.setResult_a (s : State) (r : Option Report) : (s.setResult r).a = s.a := rfl
@[simp] theorem State.setResult_x (s : State) (r : Option Report) : (s.setResult r).x = s.x := rfl
@[simp] theorem State.setResult_y (s : State) (r : Option Report) : (s.setResult r).y = s.y := rfl
@[simp] theorem State.setResult_sp (s : State) (r : Option Report) : (s.setResult r).sp = s.sp := rfl
@[simp] theorem State.setResult_pc (s : State) (r : Option Report) : (s.setResult r).pc = s.pc := rfl
@[simp] theorem State.setResult_p (s : State) (r : Option Report) : (s.setResult r).p = s.p := rfl
@[simp] theorem State.setResult_mem (s : State) (r : Option Report) : (s.setResult r).mem = s.mem := rfl
@[simp] theorem State.setResult_result (s : State) (r : Option Report) : (s.setResult r).result = r := rfl

@[simp] theorem State.setFlag_a (s : State) (f : Flag) (on : Bool) : (s.setFlag f on).a = s.a := rfl
@[simp] theorem State.setFlag_x (s : State) (f : Flag) (on : Bool) : (s.setFlag f on).x = s.x := rfl
@[simp] theorem State.setFlag_y (s : State) (f : Flag) (on : Bool) : (s.setFlag f on).y = s.y := rfl
@[simp] theorem State.setFlag_sp (s : State) (f : Flag) (on : Bool) : (s.setFlag f on).sp = s.sp := rfl
@[simp] theorem State.setFlag_pc (s : State) (f : Flag) (on : Bool) : (s.setFlag f on).pc = s.pc := rfl
@[simp] theorem State.setFlag_p (s : State) (f : Flag) (on : Bool) : (s.setFlag f on).p = writeFlag s.p f on := rfl
@[simp] theorem State.setFlag_mem (s : State) (f : Flag) (on : Bool) : (s.setFlag f on).mem = s.mem := rfl
@[simp] theorem State.setFlag_result (s : State) (f : Flag) (on : Bool) : (s.setFlag f on).result = s.result := rfl

@[simp] theorem State.setNZ_a (s : State) (v : Byte) : (s.setNZ v).a = s.a := rfl
@[simp] theorem State.setNZ_x (s : State) (v : Byte) : (s.setNZ v).x = s.x := rfl
@[simp] theorem State.setNZ_y (s : State) (v : Byte) : (s.setNZ v).y = s.y := rfl
@[simp] theorem State.setNZ_sp (s : State) (v : Byte) : (s.setNZ v).sp = s.sp := rfl
@[simp] theorem State.setNZ_pc (s : State) (v : Byte) : (s.setNZ v).pc = s.pc := rfl
@[simp] theorem State.setNZ_p (s : State) (v : Byte) : (s.setNZ v).p = writeNZ s.p v := rfl
@[simp] theorem State.setNZ_mem (s : State) (v : Byte) : (s.setNZ v).mem = s.mem := rfl
@[simp] theorem State.setNZ_result (s : State) (v : Byte) : (s.setNZ v).result = s.result := rfl

@[simp] theorem State.memWrite_a (s : State) (addr : Word) (v : Byte) : (s.memWrite addr v).a = s.a := rfl
@[simp] theorem State.memWrite_x (s : State) (addr : Word) (v : Byte) : (s.memWrite addr v).x = s.x := rfl
@[simp] theorem State.memWrite_y (s : State) (addr : Word) (v : Byte) : (s.memWrite addr v).y = s.y := rfl
@[simp] theorem State.memWrite_sp (s : State) (addr : Word) (v : Byte) : (s.memWrite addr v).sp = s.sp := rfl
@[simp] theorem State.memWrite_pc (s : State) (addr : Word) (v : Byte) : (s.memWrite addr v).pc = s.pc := rfl
@[simp] theorem State.memWrite_p (s : State) (addr : Word) (v : Byte) : (s.memWrite addr v).p = s.p := rfl
@[simp] theorem State.memWrite_mem (s : State) (addr : Word) (v : Byte) : (s.memWrite addr v).mem = s.mem.write addr v := rfl
@[simp] theorem State.memWrite_result (s : State) (addr : Word) (v : Byte) : (s.memWrite addr v).result = s.result := rfl

@[simp] theorem State.push_a (s : State) (v : Byte) : (s.push v).a = s.a := rfl
@[simp] theorem State.push_x (s : State) (v : Byte) : (s.push v).x = s.x := rfl
@[simp] theorem State.push_y (s : State) (v : Byte) : (s.push v).y = s.y := rfl
@[simp] theorem State.push_sp (s : State) (v : Byte) : (s.push v).sp = s.sp - 1 := rfl
@[simp] theorem State.push_pc (s : State) (v : Byte) : (s.push v).pc = s.pc := rfl
@[simp] theorem State.push_p (s : State) (v : Byte) : (s.push v).p = s.p := rfl
@[simp] theorem State.push_mem (s : State) (v : Byte) : (s.push v).mem = s.mem.write (stackAddr s.sp) v := rfl
@[simp] theorem State.push_result (s : State) (v : Byte) : (s.push v).result = s.result := rfl

@[simp] theorem State.pulled_a (s : State) : s.pulled.a = s.a := rfl
@[simp] theorem State.pulled_x (s : State) : s.pulled.x = s.x := rfl
@[simp] theorem State.pulled_y (s : State) : s.pulled.y = s.y := rfl
@[simp] theorem State.pulled_sp (s : State) : s.pulled.sp = s.sp + 1 := rfl
@[simp] theorem State.pulled_pc (s : State) : s.pulled.pc = s.pc := rfl
@[simp] theorem State.pulled_p (s : State) : s.pulled.p = s.p := rfl
@[simp] theorem State.pulled_mem (s : State) : s.pulled.mem = s.mem := rfl
@[simp] theorem State.pulled_result (s : State) : s.pulled.result = s.result := rfl

@[simp] theorem State.pushWord_a (s : State) (w : Word) : (s.pushWord w).a = s.a := rfl
@[simp] theorem State.pushWord_x (s : State) (w : Word) : (s.pushWord w).x = s.x := rfl
@[simp] theorem State.pushWord_y (s : State) (w : Word) : (s.pushWord w).y = s.y := rfl
@[simp] theorem State.pushWord_sp (s : State) (w : Word) : (s.pushWord w).sp = s.sp - 1 - 1 := rfl
@[simp] theorem State.pushWord_pc (s : State) (w : Word) : (s.pushWord w).pc = s.pc := rfl
@[simp] theorem State.pushWord_p (s : State) (w : Word) : (s.pushWord w).p = s.p := rfl
@[simp] theorem State.pushWord_mem (s : State) (w : Word) : (s.pushWord w).mem = (s.mem.write (stackAddr s.sp) (hiByte w)).write (stackAddr (s.sp - 1)) (loByte w) := rfl
@[simp] theorem State.pushWord_result (s : State) (w : Word) : (s.pushWord w).result = s.result := rfl

@[simp] theorem State.pulledWord_a (s : State) : s.pulledWord.a = s.a := rfl
@[simp] theorem State.pulledWord_x (s : State) : s.pulledWord.x = s.x := rfl
@[simp] theorem State.pulledWord_y (s : State) : s.pulledWord.y = s.y := rfl
@[simp] theorem State.pulledWord_sp (s : State) : s.pulledWord.sp = s.sp + 1 + 1 := rfl
@[simp] theorem State.pulledWord_pc (s : State) : s.pulledWord.pc = s.pc := rfl
@[simp] theorem State.pulledWord_p (s : State) : s.pulledWord.p = s.p := rfl
@[simp] theorem State.pulledWord_mem (s : State) : s.pulledWord.mem = s.mem := rfl
@[simp] theorem State.pulledWord_result (s : State) : s.pulledWord.result = s.result := rfl

@[simp] theorem State.finish_a (s : State) (len : Nat) (target : Option Word) :
    (s.finish len target).a = s.a := rfl
@[simp] theorem State.finish_x (s : State) (len : Nat) (target : Option Word) :
    (s.finish len target).x = s.x := rfl
@[simp] theorem State.finish_y (s : State) (len : Nat) (target : Option Word) :
    (s.finish len target).y = s.y := rfl
@[simp] theorem State.finish_sp (s : State) (len : Nat) (target : Option Word) :
    (s.finish len target).sp = s.sp := rfl
@[simp] theorem State.finish_pc (s : State) (len : Nat) (target : Option Word) :
    (s.finish len target).pc = target.getD (s.pc + BitVec.ofNat 16 len) := rfl
@[simp] theorem State.finish_p (s : State) (len : Nat) (target : Option Word) :
    (s.finish len target).p = s.p := rfl
@[simp] theorem State.finish_mem (s : State) (len : Nat) (target : Option Word) :
    (s.finish len target).mem = s.mem := rfl
@[simp] theorem State.finish_result (s : State) (len : Nat) (target : Option Word) :
    (s.finish len target).result = some { bytesConsumed := len, error := none } := rfl

@[simp] theorem State.raiseUnimplemented_a (s : State) : s.raiseUnimplemented.a = s.a := rfl
@[simp] theorem State.raiseUnimplemented_x (s : State) : s.raiseUnimplemented.x = s.x := rfl
@[simp] theorem State.raiseUnimplemented_y (s : State) : s.raiseUnimplemented.y = s.y := rfl
@[simp] theorem State.raiseUnimplemented_sp (s : State) : s.raiseUnimplemented.sp = s.sp := rfl
@[simp] theorem State.raiseUnimplemented_pc (s : State) : s.raiseUnimplemented.pc = s.pc := rfl
@[simp] theorem State.raiseUnimplemented_p (s : State) : s.raiseUnimplemented.p = s.p := rfl
@[simp] theorem State.raiseUnimplemented_mem (s : State) : s.raiseUnimplemented.mem = s.mem := rfl
@[simp] theorem State.raiseUnimplemented_result (s : State) : s.raiseUnimplemented.result = some { bytesConsumed := 0, error := some .unimplementedOpcode } := rfl

@[simp] theorem State.enterBreak_a (s : State) : s.enterBreak.a = s.a := by simp [State.enterBreak]
@[simp] theorem State.enterBreak_x (s : State) : s.enterBreak.x = s.x := by simp [State.enterBreak]
@[simp] theorem State.enterBreak_y (s : State) : s.enterBreak.y = s.y := by simp [State.enterBreak]
@[simp] theorem State.enterBreak_sp (s : State) : s.enterBreak.sp = s.sp - 1 - 1 - 1 := by simp [State.enterBreak]
@[simp] theorem State.enterBreak_pc (s : State) : s.enterBreak.pc = s.pc := by simp [State.enterBreak]
@[simp] theorem State.enterBreak_p (s : State) : s.enterBreak.p = writeFlag (writeFlag s.p .b true) .i true := by simp [State.enterBreak]
@[simp] theorem State.enterBreak_mem (s : State) : s.enterBreak.mem = ((s.mem.write (stackAddr s.sp) (hiByte s.breakReturn)).write (stackAddr (s.sp - 1))
      (loByte s.breakReturn)).write (stackAddr (s.sp - 1 - 1)) (writeFlag s.p .b true) := by simp [State.enterBreak]
@[simp] theorem State.enterBreak_result (s : State) : s.enterBreak.result = s.result := by simp [State.enterBreak]

@[simp] theorem State.leaveBreak_a (s : State) : s.leaveBreak.a = s.a := by simp [State.leaveBreak]
@[simp] theorem State.leaveBreak_x (s : State) : s.leaveBreak.x = s.x := by simp [State.leaveBreak]
@[simp] theorem State.leaveBreak_y (s : State) : s.leaveBreak.y = s.y := by simp [State.leaveBreak]
@[simp] theorem State.leaveBreak_sp (s : State) : s.leaveBreak.sp = s.sp + 1 + 1 + 1 := by simp [State.leaveBreak]
@[simp] theorem State.leaveBreak_pc (s : State) : s.leaveBreak.pc = s.pc := by simp [State.leaveBreak]
@[simp] theorem State.leaveBreak_p (s : State) : s.leaveBreak.p = s.pullValue := by simp [State.leaveBreak]
@[simp] theorem State.leaveBreak_mem (s : State) : s.leaveBreak.mem = s.mem := by simp [State.leaveBreak]
@[simp] theorem State.leaveBreak_result (s : State) : s.leaveBreak.result = s.result := by simp [State.leaveBreak]

/-- Two states with the same fields are the same state. -/
theorem State.eq_of_fields (s t : State) (ha : s.a = t.a) (hx : s.x = t.x) (hy : s.y = t.y) (hsp : s.sp = t.sp)
    (hpc : s.pc = t.pc) (hp : s.p = t.p) (hm : s.mem = t.mem) (hr : s.result = t.result) : s = t := by
  cases s; cases t; simp_all

end Sys2Proof.Machine
end

