-- ==== Sys2Proof/Laws/Flags.lean ====
section
/-! SUPPORT. The laws of the status word: which bit a flag write changes, and what each flag reads as after each of the
flag computations of Machine/Flags.lean. -/

namespace Sys2Proof.Machine

theorem Flag.pos_inj (f g : Flag) (h : f.pos = g.pos) : f = g := by
  cases f <;> cases g <;> first | rfl | exact absurd h (by decide)

theorem Flag.pos_lt (f : Flag) : f.pos < 8 := by cases f <;> decide

/-- A flag write, seen through any flag. -/
theorem readFlag_writeFlag (p : Byte) (f g : Flag) (on : Bool) :
    readFlag (writeFlag p f on) g = if f = g then on else readFlag p g := by
  have hmask : f.mask.getLsbD g.pos = decide (f = g) := by cases f <;> cases g <;> decide
  have hg := Flag.pos_lt g
  unfold readFlag writeFlag
  cases on <;> by_cases h : f = g <;> simp_all

@[simp] theorem readFlag_writeFlag_same (p : Byte) (f : Flag) (on : Bool) : readFlag (writeFlag p f on) f = on := by
  simp [readFlag_writeFlag]

/-- A status word is the bits of its eight flags. -/
theorem status_ext (p q : Byte) (h : ∀ f, readFlag p f = readFlag q f) : p = q := by
  apply BitVec.eq_of_getLsbD_eq
  intro i hi
  have hn := h .n; have hv := h .v; have hu := h .u; have hb := h .b
  have hd := h .d; have hi' := h .i; have hz := h .z; have hc := h .c
  simp only [readFlag, Flag.pos] at hn hv hu hb hd hi' hz hc
  have : i = 0 ∨ i = 1 ∨ i = 2 ∨ i = 3 ∨ i = 4 ∨ i = 5 ∨ i = 6 ∨ i = 7 := by omega
  rcases this with rfl | rfl | rfl | rfl | rfl | rfl | rfl | rfl <;> assumption

/-- `SetNZ`, seen through any flag (R90). -/
theorem readFlag_writeNZ (p v : Byte) (f : Flag) :
    readFlag (writeNZ p v) f = if f = .n then v.msb else if f = .z then v == 0 else readFlag p f := by
  cases f <;> simp [writeNZ, readFlag_writeFlag]

/-- The status word of `adc` and `sbc`, seen through any flag (R123, R124). -/
theorem readFlag_writeSum (p : Byte) (r : Sum) (f : Flag) :
    readFlag (writeSum p r) f = match f with
      | .n => r.value.msb
      | .v => r.overflow
      | .z => r.value == 0
      | .c => r.carry
      | f => readFlag p f := by
  cases f <;> simp [writeSum, readFlag_writeNZ, readFlag_writeFlag]

/-- The status word of a compare, seen through any flag (R128). -/
theorem readFlag_writeCompare (p r m : Byte) (f : Flag) :
    readFlag (writeCompare p r m) f = match f with
      | .n => (r - m).msb
      | .z => r == m
      | .c => decide (m.toNat ≤ r.toNat)
      | f => readFlag p f := by
  cases f <;> simp [writeCompare, readFlag_writeFlag]

/-- The status word of `bit`, seen through any flag (R131). -/
theorem readFlag_writeBitTest (p a m : Byte) (f : Flag) :
    readFlag (writeBitTest p a m) f = match f with
      | .n => m.getLsbD 7
      | .v => m.getLsbD 6
      | .z => (a &&& m) == 0
      | f => readFlag p f := by
  cases f <;> simp [writeBitTest, readFlag_writeFlag]

/-- The status word of a shift, seen through any flag (R141 to R144). -/
theorem readFlag_writeShifted (p : Byte) (r : Shifted) (f : Flag) :
    readFlag (writeShifted p r) f = match f with
      | .n => r.value.msb
      | .z => r.value == 0
      | .c => r.carry
      | f => readFlag p f := by
  cases f <;> simp [writeShifted, readFlag_writeNZ, readFlag_writeFlag]

end Sys2Proof.Machine
end

