-- ==== Sys2Proof/Laws/Memory.lean ====
section
/-! SUPPORT. The laws of the memory: a read gives the byte last written there (R46), other addresses keep theirs, and
every operation keeps the canonical form. The read laws need no canonical form. -/

namespace Sys2Proof.Machine

theorem Memory.peek_erase_same (m : Memory) (a : Nat) : (m.erase a).peek a = memoryFill := by
  induction m with
  | nil => rfl
  | cons c rest ih =>
    by_cases h : c.1 = a
    · simpa [Memory.erase, h] using ih
    · simpa [Memory.erase, h, Memory.peek] using ih

theorem Memory.peek_erase_other (m : Memory) (a b : Nat) (hab : a ≠ b) : (m.erase a).peek b = m.peek b := by
  induction m with
  | nil => rfl
  | cons c rest ih =>
    by_cases h : c.1 = a
    · have hb : c.1 ≠ b := h ▸ hab
      simpa [Memory.erase, h, Memory.peek, hab] using ih
    · by_cases hb : c.1 = b
      · simp [Memory.erase, Memory.peek, hb, Ne.symm hab]
      · simpa [Memory.erase, h, Memory.peek, hb] using ih

theorem Memory.peek_insertCell_other (m : Memory) (a b : Nat) (v : Byte) (hab : a ≠ b) :
    (m.insertCell a v).peek b = m.peek b := by
  induction m with
  | nil => simp [Memory.insertCell, Memory.peek, hab]
  | cons c rest ih =>
    by_cases h : a < c.1
    · simp [Memory.insertCell, h, Memory.peek, hab]
    · simp [Memory.insertCell, h, Memory.peek, ih]

theorem Memory.peek_insertCell_same (m : Memory) (a : Nat) (v : Byte) (hm : ∀ c ∈ m, c.1 ≠ a) :
    (m.insertCell a v).peek a = v := by
  induction m with
  | nil => simp [Memory.insertCell, Memory.peek]
  | cons c rest ih =>
    have hc : c.1 ≠ a := hm c (by simp)
    by_cases h : a < c.1
    · simp [Memory.insertCell, h, Memory.peek]
    · simpa [Memory.insertCell, h, Memory.peek, hc] using ih (fun d hd => hm d (by simp [hd]))

theorem Memory.not_mem_erase (m : Memory) (a : Nat) : ∀ c ∈ m.erase a, c.1 ≠ a := by
  intro c hc
  simpa using (List.mem_filter.mp hc).2

/-- The byte just stored at an address number is the byte read there. -/
theorem Memory.peek_poke_same (m : Memory) (a : Nat) (v : Byte) : (m.poke a v).peek a = v := by
  unfold Memory.poke
  split
  · next h => rw [Memory.peek_erase_same, h]
  · exact Memory.peek_insertCell_same _ a v (Memory.not_mem_erase m a)

/-- A store leaves every other address number alone. -/
theorem Memory.peek_poke_other (m : Memory) (a b : Nat) (v : Byte) (hab : a ≠ b) :
    (m.poke a v).peek b = m.peek b := by
  unfold Memory.poke
  split
  · exact Memory.peek_erase_other m a b hab
  · rw [Memory.peek_insertCell_other _ a b v hab, Memory.peek_erase_other m a b hab]

@[simp] theorem Memory.read_write_same (m : Memory) (a : Word) (v : Byte) : (m.write a v).read a = v :=
  Memory.peek_poke_same m a.toNat v

theorem Memory.read_write_other (m : Memory) (a b : Word) (v : Byte) (hab : a ≠ b) :
    (m.write a v).read b = m.read b :=
  Memory.peek_poke_other m a.toNat b.toNat v (fun h => hab (BitVec.eq_of_toNat_eq h))

/-- A read after a write, in one equation. -/
theorem Memory.read_write (m : Memory) (a b : Word) (v : Byte) :
    (m.write a v).read b = if a = b then v else m.read b := by
  split
  · next h => rw [h, Memory.read_write_same]
  · next h => exact Memory.read_write_other m a b v h

theorem Memory.wfFrom_mono (m : Memory) (lo hi : Nat) (hle : lo ≤ hi) (h : m.wfFrom hi = true) :
    m.wfFrom lo = true := by
  cases m with
  | nil => rfl
  | cons c rest =>
    simp only [Memory.wfFrom, Bool.and_eq_true, decide_eq_true_eq] at h ⊢
    exact ⟨⟨⟨by omega, h.1.1.2⟩, h.1.2⟩, h.2⟩

theorem Memory.wfFrom_erase (m : Memory) (lo a : Nat) (h : m.wfFrom lo = true) : (m.erase a).wfFrom lo = true := by
  induction m generalizing lo with
  | nil => rfl
  | cons c rest ih =>
    simp only [Memory.wfFrom, Bool.and_eq_true, decide_eq_true_eq] at h
    by_cases hc : c.1 = a
    · have := Memory.wfFrom_mono _ lo (c.1 + 1) (by omega) (ih (c.1 + 1) h.2)
      simpa [Memory.erase, hc] using this
    · have := ih (c.1 + 1) h.2
      simp only [Memory.erase] at this
      simp [Memory.erase, hc, Memory.wfFrom, h.1.1.1, h.1.1.2, h.1.2, this]

theorem Memory.wfFrom_insertCell (m : Memory) (lo a : Nat) (v : Byte) (hlo : lo ≤ a) (ha : a < 65536)
    (hv : v ≠ memoryFill) (hm : ∀ c ∈ m, c.1 ≠ a) (h : m.wfFrom lo = true) : (m.insertCell a v).wfFrom lo = true := by
  induction m generalizing lo with
  | nil => simp [Memory.insertCell, Memory.wfFrom, hlo, ha, hv]
  | cons c rest ih =>
    have hc : c.1 ≠ a := hm c (by simp)
    simp only [Memory.wfFrom, Bool.and_eq_true, decide_eq_true_eq] at h
    by_cases hlt : a < c.1
    · simp [Memory.insertCell, hlt, Memory.wfFrom, hlo, ha, hv, h.1.1.2, h.1.2, h.2, Nat.succ_le_of_lt hlt]
    · have := ih (c.1 + 1) (by omega) (fun d hd => hm d (by simp [hd])) h.2
      simp [Memory.insertCell, hlt, Memory.wfFrom, h.1.1.1, h.1.1.2, h.1.2, this]

/-- Every store keeps the canonical form. -/
theorem Memory.wf_write (m : Memory) (a : Word) (v : Byte) (h : m.wf = true) : (m.write a v).wf = true := by
  unfold Memory.write Memory.poke
  have he := Memory.wfFrom_erase m 0 a.toNat h
  split
  · exact he
  · next hv =>
    exact Memory.wfFrom_insertCell _ 0 a.toNat v (Nat.zero_le _) a.isLt hv (Memory.not_mem_erase m a.toNat) he

/-- The memory that lists nothing has the canonical form. -/
theorem Memory.wf_empty : Memory.wf [] = true := rfl

/-- A word store keeps the canonical form. -/
theorem Memory.wf_writeWord (m : Memory) (a w : Word) (h : m.wf = true) : (m.writeWord a w).wf = true :=
  Memory.wf_write _ _ _ (Memory.wf_write _ _ _ h)

end Sys2Proof.Machine
end

