-- ==== Sys2Proof/Laws/Ops.lean ====
section
/-! SUPPORT. One lemma per shared operation: reads after writes at the level of the state, the stack's addresses, and what
each shared step shape answers. -/

namespace Sys2Proof.Machine

/-- A read of the memory port after a write (R46). -/
theorem State.memRead_memWrite (s : State) (a b : Word) (v : Byte) :
    (s.memWrite a v).memRead b = if a = b then v else s.memRead b :=
  Memory.read_write s.mem a b v

/-- A read of the memory port looks at the memory only. -/
theorem State.memRead_eq_of_mem (s t : State) (h : t.mem = s.mem) (b : Word) : t.memRead b = s.memRead b := by
  unfold State.memRead; rw [h]

/-- The flag of a state looks at P only. -/
theorem State.flag_eq_of_p (s t : State) (h : t.p = s.p) (f : Flag) : t.flag f = s.flag f := by
  unfold State.flag; rw [h]

/-- A stack address as a number: the stack page is 0x0100 to 0x01FF (R13, R40). -/
theorem stackAddr_toNat (sp : Byte) : (stackAddr sp).toNat = 256 + sp.toNat := by
  have h := sp.isLt
  simp only [stackAddr, joinBytes, Config.stackPage, BitVec.toNat_append]
  rw [← Nat.shiftLeft_add_eq_or_of_lt h]
  simp

/-- Different stack pointers name different slots (R40). -/
theorem stackAddr_inj (p q : Byte) : stackAddr p = stackAddr q ↔ p = q := by
  constructor
  · intro h
    have := congrArg BitVec.toNat h
    rw [stackAddr_toNat, stackAddr_toNat] at this
    exact BitVec.eq_of_toNat_eq (by omega)
  · rintro rfl; rfl

/-- The word made of the two bytes of a word is that word (R34). -/
@[simp] theorem joinBytes_bytes (w : Word) : joinBytes (hiByte w) (loByte w) = w := by
  apply BitVec.eq_of_getLsbD_eq
  intro i hi
  simp only [joinBytes, hiByte, loByte, BitVec.getLsbD_append, BitVec.getLsbD_extractLsb']
  by_cases h : i < 8
  · simp [h]
  · have : i - 8 < 8 := by omega
    have h8 : 8 + (i - 8) = i := by omega
    simp [h, this, h8]

@[simp] theorem loByte_joinBytes (hi lo : Byte) : loByte (joinBytes hi lo) = lo := by
  apply BitVec.eq_of_getLsbD_eq
  intro i h
  simp only [joinBytes, loByte, BitVec.getLsbD_append, BitVec.getLsbD_extractLsb']
  simp [h]

@[simp] theorem hiByte_joinBytes (hi lo : Byte) : hiByte (joinBytes hi lo) = hi := by
  apply BitVec.eq_of_getLsbD_eq
  intro i h
  simp only [joinBytes, hiByte, BitVec.getLsbD_append, BitVec.getLsbD_extractLsb']
  simp [h]

/-- The number of a joined word (R35). -/
theorem joinBytes_toNat (hi lo : Byte) : (joinBytes hi lo).toNat = lo.toNat + 256 * hi.toNat := by
  have h := lo.isLt
  simp only [joinBytes, BitVec.toNat_append]
  rw [← Nat.shiftLeft_add_eq_or_of_lt h, Nat.shiftLeft_eq]
  omega

/-- What a step that reads one operand answers. -/
theorem withOperand_next (o : ReadOperand) (s t : State) (f : Byte → State → State)
    (h : withOperand o s f = .next t) : t = (f (readValue o s) s).finish o.mode.len none := by
  simpa [withOperand, eq_comm] using h

/-- What a store answers. -/
theorem storeByte_next (m : MemOperand) (v : Byte) (s t : State) (h : storeByte m v s = .next t) :
    t = (s.memWrite (effectiveAddr m s) v).finish m.mode.len none := by
  simpa [storeByte, eq_comm] using h

/-- What an Implicit step that does not set PC answers. -/
theorem implied_next (u t : State) (h : implied u = .next t) : t = u.finish 1 none := by
  simpa [implied, Mode.len, eq_comm] using h

/-- What a shift answers. -/
theorem shiftStep_next (o : ShiftOperand) (r : Shifted) (s t : State) (h : shiftStep o r s = .next t) :
    t = ((storeShift o r.value s).setP (writeShifted s.p r)).finish o.mode.len none := by
  simpa [shiftStep, eq_comm] using h

/-- What a read-modify-write answers. -/
theorem modifyStep_next (m : MemOperand) (r : Byte) (s t : State) (h : modifyStep m r s = .next t) :
    t = ((s.memWrite (effectiveAddr m s) r).setNZ r).finish m.mode.len none := by
  simpa [modifyStep, eq_comm] using h

/-- What a branch answers: its target, or the next instruction (R164). -/
theorem branchIf_next (taken : Bool) (off : Byte) (s t : State) (h : branchIf taken off s = .next t) :
    t = s.finish 2 (if taken then some (branchTarget off s) else none) := by
  simpa [branchIf, Mode.len, eq_comm] using h

end Sys2Proof.Machine
end

