-- ==== Sys2Proof/Laws/PerInstr.lean ====
section
/-! SUPPORT. The per-instruction family `EncodedLength`: an instruction that exists has an encoding, and it is as long as
its mode says (R50, R52, R57). One lemma per constructor of `Instr`. -/

namespace Sys2Proof

/-- A well-formed instruction encodes to exactly `Len(mode)` bytes (R52). -/
def Laws.EncodedLength.Statement (i : Instr) : Prop :=
  i.wellFormed = true → ∃ bs, encode i = some bs ∧ bs.length = i.len

theorem Laws.EncodedLength.adc (o : ReadOperand) : Laws.EncodedLength.Statement (.adc o) := by
  cases o with
  | imm _ => exact fun _ => ⟨_, rfl, rfl⟩
  | mem m => cases m <;> first | exact fun _ => ⟨_, rfl, rfl⟩ | exact fun h => absurd h Bool.false_ne_true

theorem Laws.EncodedLength.and (o : ReadOperand) : Laws.EncodedLength.Statement (.and o) := by
  cases o with
  | imm _ => exact fun _ => ⟨_, rfl, rfl⟩
  | mem m => cases m <;> first | exact fun _ => ⟨_, rfl, rfl⟩ | exact fun h => absurd h Bool.false_ne_true

theorem Laws.EncodedLength.asl (o : ShiftOperand) : Laws.EncodedLength.Statement (.asl o) := by
  cases o with
  | acc => exact fun _ => ⟨_, rfl, rfl⟩
  | mem m => cases m <;> first | exact fun _ => ⟨_, rfl, rfl⟩ | exact fun h => absurd h Bool.false_ne_true

theorem Laws.EncodedLength.bcc (off : Byte) : Laws.EncodedLength.Statement (.bcc off) := fun _ => ⟨_, rfl, rfl⟩

theorem Laws.EncodedLength.bcs (off : Byte) : Laws.EncodedLength.Statement (.bcs off) := fun _ => ⟨_, rfl, rfl⟩

theorem Laws.EncodedLength.beq (off : Byte) : Laws.EncodedLength.Statement (.beq off) := fun _ => ⟨_, rfl, rfl⟩

theorem Laws.EncodedLength.bit (m : MemOperand) : Laws.EncodedLength.Statement (.bit m) := by
  cases m <;> first | exact fun _ => ⟨_, rfl, rfl⟩ | exact fun h => absurd h Bool.false_ne_true

theorem Laws.EncodedLength.bmi (off : Byte) : Laws.EncodedLength.Statement (.bmi off) := fun _ => ⟨_, rfl, rfl⟩

theorem Laws.EncodedLength.bne (off : Byte) : Laws.EncodedLength.Statement (.bne off) := fun _ => ⟨_, rfl, rfl⟩

theorem Laws.EncodedLength.bpl (off : Byte) : Laws.EncodedLength.Statement (.bpl off) := fun _ => ⟨_, rfl, rfl⟩

theorem Laws.EncodedLength.brk : Laws.EncodedLength.Statement .brk := fun _ => ⟨_, rfl, rfl⟩

theorem Laws.EncodedLength.bvc (off : Byte) : Laws.EncodedLength.Statement (.bvc off) := fun _ => ⟨_, rfl, rfl⟩

theorem Laws.EncodedLength.bvs (off : Byte) : Laws.EncodedLength.Statement (.bvs off) := fun _ => ⟨_, rfl, rfl⟩

theorem Laws.EncodedLength.clc : Laws.EncodedLength.Statement .clc := fun _ => ⟨_, rfl, rfl⟩

theorem Laws.EncodedLength.cld : Laws.EncodedLength.Statement .cld := fun _ => ⟨_, rfl, rfl⟩

theorem Laws.EncodedLength.cli : Laws.EncodedLength.Statement .cli := fun _ => ⟨_, rfl, rfl⟩

theorem Laws.EncodedLength.clv : Laws.EncodedLength.Statement .clv := fun _ => ⟨_, rfl, rfl⟩

theorem Laws.EncodedLength.cmp (o : ReadOperand) : Laws.EncodedLength.Statement (.cmp o) := by
  cases o with
  | imm _ => exact fun _ => ⟨_, rfl, rfl⟩
  | mem m => cases m <;> first | exact fun _ => ⟨_, rfl, rfl⟩ | exact fun h => absurd h Bool.false_ne_true

theorem Laws.EncodedLength.cpx (o : ReadOperand) : Laws.EncodedLength.Statement (.cpx o) := by
  cases o with
  | imm _ => exact fun _ => ⟨_, rfl, rfl⟩
  | mem m => cases m <;> first | exact fun _ => ⟨_, rfl, rfl⟩ | exact fun h => absurd h Bool.false_ne_true

theorem Laws.EncodedLength.cpy (o : ReadOperand) : Laws.EncodedLength.Statement (.cpy o) := by
  cases o with
  | imm _ => exact fun _ => ⟨_, rfl, rfl⟩
  | mem m => cases m <;> first | exact fun _ => ⟨_, rfl, rfl⟩ | exact fun h => absurd h Bool.false_ne_true

theorem Laws.EncodedLength.dec (m : MemOperand) : Laws.EncodedLength.Statement (.dec m) := by
  cases m <;> first | exact fun _ => ⟨_, rfl, rfl⟩ | exact fun h => absurd h Bool.false_ne_true

theorem Laws.EncodedLength.dex : Laws.EncodedLength.Statement .dex := fun _ => ⟨_, rfl, rfl⟩

theorem Laws.EncodedLength.dey : Laws.EncodedLength.Statement .dey := fun _ => ⟨_, rfl, rfl⟩

theorem Laws.EncodedLength.eor (o : ReadOperand) : Laws.EncodedLength.Statement (.eor o) := by
  cases o with
  | imm _ => exact fun _ => ⟨_, rfl, rfl⟩
  | mem m => cases m <;> first | exact fun _ => ⟨_, rfl, rfl⟩ | exact fun h => absurd h Bool.false_ne_true

theorem Laws.EncodedLength.inc (m : MemOperand) : Laws.EncodedLength.Statement (.inc m) := by
  cases m <;> first | exact fun _ => ⟨_, rfl, rfl⟩ | exact fun h => absurd h Bool.false_ne_true

theorem Laws.EncodedLength.inx : Laws.EncodedLength.Statement .inx := fun _ => ⟨_, rfl, rfl⟩

theorem Laws.EncodedLength.iny : Laws.EncodedLength.Statement .iny := fun _ => ⟨_, rfl, rfl⟩

theorem Laws.EncodedLength.jmp (t : JumpOperand) : Laws.EncodedLength.Statement (.jmp t) := by
  cases t <;> exact fun _ => ⟨_, rfl, rfl⟩

theorem Laws.EncodedLength.jsr (target : Word) : Laws.EncodedLength.Statement (.jsr target) := fun _ => ⟨_, rfl, rfl⟩

theorem Laws.EncodedLength.lda (o : ReadOperand) : Laws.EncodedLength.Statement (.lda o) := by
  cases o with
  | imm _ => exact fun _ => ⟨_, rfl, rfl⟩
  | mem m => cases m <;> first | exact fun _ => ⟨_, rfl, rfl⟩ | exact fun h => absurd h Bool.false_ne_true

theorem Laws.EncodedLength.ldx (o : ReadOperand) : Laws.EncodedLength.Statement (.ldx o) := by
  cases o with
  | imm _ => exact fun _ => ⟨_, rfl, rfl⟩
  | mem m => cases m <;> first | exact fun _ => ⟨_, rfl, rfl⟩ | exact fun h => absurd h Bool.false_ne_true

theorem Laws.EncodedLength.ldy (o : ReadOperand) : Laws.EncodedLength.Statement (.ldy o) := by
  cases o with
  | imm _ => exact fun _ => ⟨_, rfl, rfl⟩
  | mem m => cases m <;> first | exact fun _ => ⟨_, rfl, rfl⟩ | exact fun h => absurd h Bool.false_ne_true

theorem Laws.EncodedLength.lsr (o : ShiftOperand) : Laws.EncodedLength.Statement (.lsr o) := by
  cases o with
  | acc => exact fun _ => ⟨_, rfl, rfl⟩
  | mem m => cases m <;> first | exact fun _ => ⟨_, rfl, rfl⟩ | exact fun h => absurd h Bool.false_ne_true

theorem Laws.EncodedLength.nop : Laws.EncodedLength.Statement .nop := fun _ => ⟨_, rfl, rfl⟩

theorem Laws.EncodedLength.ora (o : ReadOperand) : Laws.EncodedLength.Statement (.ora o) := by
  cases o with
  | imm _ => exact fun _ => ⟨_, rfl, rfl⟩
  | mem m => cases m <;> first | exact fun _ => ⟨_, rfl, rfl⟩ | exact fun h => absurd h Bool.false_ne_true

theorem Laws.EncodedLength.pha : Laws.EncodedLength.Statement .pha := fun _ => ⟨_, rfl, rfl⟩

theorem Laws.EncodedLength.php : Laws.EncodedLength.Statement .php := fun _ => ⟨_, rfl, rfl⟩

theorem Laws.EncodedLength.pla : Laws.EncodedLength.Statement .pla := fun _ => ⟨_, rfl, rfl⟩

theorem Laws.EncodedLength.plp : Laws.EncodedLength.Statement .plp := fun _ => ⟨_, rfl, rfl⟩

theorem Laws.EncodedLength.rol (o : ShiftOperand) : Laws.EncodedLength.Statement (.rol o) := by
  cases o with
  | acc => exact fun _ => ⟨_, rfl, rfl⟩
  | mem m => cases m <;> first | exact fun _ => ⟨_, rfl, rfl⟩ | exact fun h => absurd h Bool.false_ne_true

theorem Laws.EncodedLength.ror (o : ShiftOperand) : Laws.EncodedLength.Statement (.ror o) := by
  cases o with
  | acc => exact fun _ => ⟨_, rfl, rfl⟩
  | mem m => cases m <;> first | exact fun _ => ⟨_, rfl, rfl⟩ | exact fun h => absurd h Bool.false_ne_true

theorem Laws.EncodedLength.rti : Laws.EncodedLength.Statement .rti := fun _ => ⟨_, rfl, rfl⟩

theorem Laws.EncodedLength.rts : Laws.EncodedLength.Statement .rts := fun _ => ⟨_, rfl, rfl⟩

theorem Laws.EncodedLength.sbc (o : ReadOperand) : Laws.EncodedLength.Statement (.sbc o) := by
  cases o with
  | imm _ => exact fun _ => ⟨_, rfl, rfl⟩
  | mem m => cases m <;> first | exact fun _ => ⟨_, rfl, rfl⟩ | exact fun h => absurd h Bool.false_ne_true

theorem Laws.EncodedLength.sec : Laws.EncodedLength.Statement .sec := fun _ => ⟨_, rfl, rfl⟩

theorem Laws.EncodedLength.sed : Laws.EncodedLength.Statement .sed := fun _ => ⟨_, rfl, rfl⟩

theorem Laws.EncodedLength.sei : Laws.EncodedLength.Statement .sei := fun _ => ⟨_, rfl, rfl⟩

theorem Laws.EncodedLength.sta (m : MemOperand) : Laws.EncodedLength.Statement (.sta m) := by
  cases m <;> first | exact fun _ => ⟨_, rfl, rfl⟩ | exact fun h => absurd h Bool.false_ne_true

theorem Laws.EncodedLength.stx (m : MemOperand) : Laws.EncodedLength.Statement (.stx m) := by
  cases m <;> first | exact fun _ => ⟨_, rfl, rfl⟩ | exact fun h => absurd h Bool.false_ne_true

theorem Laws.EncodedLength.sty (m : MemOperand) : Laws.EncodedLength.Statement (.sty m) := by
  cases m <;> first | exact fun _ => ⟨_, rfl, rfl⟩ | exact fun h => absurd h Bool.false_ne_true

theorem Laws.EncodedLength.tax : Laws.EncodedLength.Statement .tax := fun _ => ⟨_, rfl, rfl⟩

theorem Laws.EncodedLength.tay : Laws.EncodedLength.Statement .tay := fun _ => ⟨_, rfl, rfl⟩

theorem Laws.EncodedLength.tsx : Laws.EncodedLength.Statement .tsx := fun _ => ⟨_, rfl, rfl⟩

theorem Laws.EncodedLength.txa : Laws.EncodedLength.Statement .txa := fun _ => ⟨_, rfl, rfl⟩

theorem Laws.EncodedLength.txs : Laws.EncodedLength.Statement .txs := fun _ => ⟨_, rfl, rfl⟩

theorem Laws.EncodedLength.tya : Laws.EncodedLength.Statement .tya := fun _ => ⟨_, rfl, rfl⟩

theorem Laws.EncodedLength.invalid (op : Byte) : Laws.EncodedLength.Statement (.invalid op) := fun h =>
  ⟨[op], by have hm : op ∈ invalidBytes := of_decide_eq_true h
            simp [encode, Instr.opcode, hm, Instr.operandBytes], rfl⟩

end Sys2Proof
end

