-- ==== Sys2Proof/Tests/Slice0.lean ====
section
/-! SUPPORT. Small tests: which instructions exist, one word per constructor written out from the encoding of spec/30,
single steps from the spec's own vectors (spec/95 to spec/97; the id is in each comment), the text form, and for every
statement with hypotheses a state and operands that meet them (`test_meets_...`). -/

open Sys2Proof Sys2Proof.Machine

namespace Sys2Proof.Tests

/-- `s` with the bytes `bs` in memory from `at_` on. -/
def load (at_ : Word) (bs : List Byte) (s : State) : State :=
  match bs with
  | [] => s
  | b :: rest => load (at_ + 1) rest (s.memWrite at_ b)

/-- The vectors' start state: after `HardReset`, PC = 0x0600, the instruction there. -/
def boot (bs : List Byte) : State := load 0x0600 bs (State.reset.setPC 0x0600)

/-- What is seen in the state after a step. -/
def seen {α : Type} (f : State → α) (s : State) : Option α :=
  match step s with
  | .next t => some (f t)
  | .fault _ => none
  | .refused _ => none

/-! ## Which instructions exist: an ill-formed term for each check -/

theorem test_ill_formed_acc_form : (Instr.lda (.mem (.zpy 0x10))).wellFormed = false := by decide
theorem test_ill_formed_x_form_inc : (Instr.inc (.aby 0x1234)).wellFormed = false := by decide
theorem test_ill_formed_x_form_ldy : (Instr.ldy (.mem (.izx 0x10))).wellFormed = false := by decide
theorem test_ill_formed_shift_form : (Instr.asl (.mem (.aby 0x1234))).wellFormed = false := by decide
theorem test_ill_formed_y_form : (Instr.ldx (.mem (.zpx 0x10))).wellFormed = false := by decide
theorem test_ill_formed_stx_form : (Instr.stx (.aby 0x1234)).wellFormed = false := by decide
theorem test_ill_formed_sty_form : (Instr.sty (.abx 0x1234)).wellFormed = false := by decide
theorem test_ill_formed_plain_form : (Instr.bit (.zpx 0x10)).wellFormed = false := by decide
theorem test_ill_formed_invalid : (Instr.invalid 0xEA).wellFormed = false := by decide
theorem test_well_formed_invalid : (Instr.invalid 0x02).wellFormed = true := by decide
theorem test_ill_formed_has_no_code : encode (.ldx (.mem (.zpx 0x10))) = none := by decide

/-! ## Decoding: a word for every constructor, from R57 (opcode), R53 to R55 (operands) -/

theorem test_decode_loads :
    decode [0xA9, 0x05] = .instr (.lda (.imm 0x05)) [] ∧ decode [0xB6, 0x10] = .instr (.ldx (.mem (.zpy 0x10))) [] ∧
    decode [0xBC, 0x34, 0x12] = .instr (.ldy (.mem (.abx 0x1234))) [] := by decide
theorem test_decode_stores :
    decode [0x91, 0x22] = .instr (.sta (.izy 0x22)) [] ∧ decode [0x96, 0xFF] = .instr (.stx (.zpy 0xFF)) [] ∧
    decode [0x8C, 0xCD, 0xAB] = .instr (.sty (.abs 0xABCD)) [] := by decide
theorem test_decode_transfers :
    decode [0xAA] = .instr .tax [] ∧ decode [0xA8] = .instr .tay [] ∧ decode [0x8A] = .instr .txa [] ∧
    decode [0x98] = .instr .tya [] ∧ decode [0xBA] = .instr .tsx [] ∧ decode [0x9A] = .instr .txs [] := by decide
theorem test_decode_arithmetic :
    decode [0x71, 0x20] = .instr (.adc (.mem (.izy 0x20))) [] ∧
    decode [0xFD, 0x00, 0x03] = .instr (.sbc (.mem (.abx 0x0300))) [] := by decide
theorem test_decode_logic :
    decode [0x35, 0x10] = .instr (.and (.mem (.zpx 0x10))) [] ∧ decode [0x01, 0x10] = .instr (.ora (.mem (.izx 0x10))) [] ∧
    decode [0x59, 0x00, 0x04] = .instr (.eor (.mem (.aby 0x0400))) [] := by decide
theorem test_decode_compares :
    decode [0xD1, 0x30] = .instr (.cmp (.mem (.izy 0x30))) [] ∧ decode [0xEC, 0x00, 0x02] = .instr (.cpx (.mem (.abs 0x0200))) [] ∧
    decode [0xC0, 0x08] = .instr (.cpy (.imm 0x08)) [] ∧ decode [0x2C, 0x00, 0x02] = .instr (.bit (.abs 0x0200)) [] := by decide
theorem test_decode_shifts :
    decode [0x0A] = .instr (.asl .acc) [] ∧ decode [0x56, 0x10] = .instr (.lsr (.mem (.zpx 0x10))) [] ∧
    decode [0x2E, 0x00, 0x02] = .instr (.rol (.mem (.abs 0x0200))) [] ∧ decode [0x6A] = .instr (.ror .acc) [] := by decide
theorem test_decode_increments :
    decode [0xFE, 0x00, 0x02] = .instr (.inc (.abx 0x0200)) [] ∧ decode [0xC6, 0x10] = .instr (.dec (.zp 0x10)) [] ∧
    decode [0xE8] = .instr .inx [] ∧ decode [0xC8] = .instr .iny [] ∧ decode [0xCA] = .instr .dex [] ∧
    decode [0x88] = .instr .dey [] := by decide
theorem test_decode_jumps :
    decode [0x4C, 0x00, 0x80] = .instr (.jmp (.abs 0x8000)) [] ∧ decode [0x6C, 0xFF, 0x02] = .instr (.jmp (.ind 0x02FF)) [] ∧
    decode [0x20, 0x00, 0x07] = .instr (.jsr 0x0700) [] ∧ decode [0x60] = .instr .rts [] ∧ decode [0x00] = .instr .brk [] ∧
    decode [0x40] = .instr .rti [] := by decide
theorem test_decode_branches :
    decode [0x10, 0x05] = .instr (.bpl 0x05) [] ∧ decode [0x30, 0xFB] = .instr (.bmi 0xFB) [] ∧
    decode [0x50, 0x7F] = .instr (.bvc 0x7F) [] ∧ decode [0x70, 0x80] = .instr (.bvs 0x80) [] ∧
    decode [0x90, 0x02] = .instr (.bcc 0x02) [] ∧ decode [0xB0, 0xFE] = .instr (.bcs 0xFE) [] ∧
    decode [0xD0, 0xFD] = .instr (.bne 0xFD) [] ∧ decode [0xF0, 0x10] = .instr (.beq 0x10) [] := by decide
theorem test_decode_stack :
    decode [0x48] = .instr .pha [] ∧ decode [0x08] = .instr .php [] ∧ decode [0x68] = .instr .pla [] ∧
    decode [0x28] = .instr .plp [] := by decide
theorem test_decode_flags :
    decode [0x18] = .instr .clc [] ∧ decode [0x38] = .instr .sec [] ∧ decode [0x58] = .instr .cli [] ∧
    decode [0x78] = .instr .sei [] ∧ decode [0xD8] = .instr .cld [] ∧ decode [0xF8] = .instr .sed [] ∧
    decode [0xB8] = .instr .clv [] ∧ decode [0xEA] = .instr .nop [] := by decide
theorem test_decode_invalid :
    decode [0xFF] = .instr (.invalid 0xFF) [] ∧ decode [0x80, 0x10] = .instr (.invalid 0x80) [0x10] := by decide
theorem test_decode_stops_at_the_length :
    decode [0xD0, 0xFD, 0xEA] = .instr (.bne 0xFD) [0xEA] ∧ decode [0xAD, 0x34] = .truncated 0xAD ∧ decode [] = .noBytes := by
  decide
theorem test_decode_table_word :
    decodeTableWord 8 0xEA = some .nop ∧ decodeTableWord 24 0x1234AD = some (.lda (.mem (.abs 0x1234))) ∧
    decodeTableWord 16 0x05A9 = some (.lda (.imm 0x05)) ∧ decodeTableWord 8 0xA9 = some (.lda (.imm 0x00)) := by decide
theorem test_encode_words :
    encode (.sbc (.mem (.abx 0x0300))) = some [0xFD, 0x00, 0x03] ∧ encode (.beq 0x10) = some [0xF0, 0x10] ∧
    encode (.rol .acc) = some [0x2A] := by decide
theorem test_step_runs_the_placed_word :
    seen (fun t => (t.a, t.pc)) (State.reset.withFetchWord 16 0x42A9) = some (0x42, 0x0002) := by decide

/-! ## Addressing modes (spec/96, section 3.1; examples of R79 to R87) -/

theorem test_mode_zpx_wraps : -- R79: operand 0xF0, X = 0x20
    effectiveAddr (.zpx 0xF0) (State.reset.setX 0x20) = 0x0010 := by decide
theorem test_mode_zpy_wraps : -- R80: operand 0xFF, Y = 0x01
    effectiveAddr (.zpy 0xFF) (State.reset.setY 0x01) = 0x0000 := by decide
theorem test_mode_abx_wraps : -- R81: operand 0xFFF0, X = 0x20
    effectiveAddr (.abx 0xFFF0) (State.reset.setX 0x20) = 0x0010 := by decide
theorem test_mode_aby : -- R82: operand 0x1234, Y = 0xFF
    effectiveAddr (.aby 0x1234) (State.reset.setY 0xFF) = 0x1333 := by decide
theorem test_mode_izx : -- R83: operand 0x20, X = 0x04
    effectiveAddr (.izx 0x20) (load 0x0024 [0x74, 0x20] (State.reset.setX 0x04)) = 0x2074 := by decide
theorem test_mode_izx_pointer_at_ff : -- R83: the high byte from 0x0100
    effectiveAddr (.izx 0xFF) (load 0x00FF [0x34, 0x12] State.reset) = 0x1234 := by decide
theorem test_mode_izy : -- R84: operand 0x86, Y = 0x10
    effectiveAddr (.izy 0x86) (load 0x0086 [0x28, 0x40] (State.reset.setY 0x10)) = 0x4038 := by decide
theorem test_mode_ind_across_a_page : -- R86: w = 0x02FF
    jumpTarget (.ind 0x02FF) (load 0x02FF [0x00, 0x80] State.reset) = 0x8000 := by decide
theorem test_mode_rel : -- R87: the four examples
    branchTarget 0x05 (State.reset.setPC 0x0600) = 0x0607 ∧ branchTarget 0xFB (State.reset.setPC 0x0600) = 0x05FD ∧
    branchTarget 0x10 (State.reset.setPC 0xFFFE) = 0x0010 ∧ branchTarget 0x80 (State.reset.setPC 0x0000) = 0xFF82 := by decide
theorem test_fetch_wraps : -- CT6: bytes at FFFE, FFFF, 0000
    fetchInstr (load 0xFFFE [0x20, 0x34, 0x12] (State.reset.setPC 0xFFFE)) = .jsr 0x1234 := by decide

/-! ## Load, store, transfer (spec/96, section 3.2) -/

theorem test_lda_zero : -- LS2
    seen (fun t => (t.a, t.p)) ((boot [0xA9, 0x00]).setP 0x84) = some (0x00, 0x06) := by decide
theorem test_lda_keeps_c_and_v : -- LS4
    seen (fun t => (t.a, t.p)) ((boot [0xA9, 0xFF]).setP 0x45) = some (0xFF, 0xC5) := by decide
theorem test_ldx_zero : -- LS5
    seen (fun t => (t.x, t.p)) ((boot [0xA2, 0x00]).setX 0x55) = some (0x00, 0x06) := by decide
theorem test_ldx_aby : -- LS6
    seen (fun t => (t.x, t.pc)) ((load 0x0305 [0x81] (boot [0xBE, 0x00, 0x03])).setY 0x05) = some (0x81, 0x0603) := by decide
theorem test_ldy_negative : -- LS7
    seen (fun t => (t.y, t.p)) (boot [0xA0, 0x80]) = some (0x80, 0x84) := by decide
theorem test_ldy_zpx : -- LS8
    seen (fun t => (t.y, t.p)) ((load 0x0011 [0x07] (boot [0xB4, 0x10])).setX 0x01) = some (0x07, 0x04) := by decide
theorem test_sta_writes_no_flag : -- LS10
    seen (fun t => (t.memRead 0x0010, t.p)) ((load 0x0010 [0x77] (boot [0x85, 0x10])).setP 0x84) = some (0x00, 0x84) := by decide
theorem test_sta_izx_into_the_stack_page : -- AM24
    seen (fun t => (t.memRead 0x01FE, t.sp)) ((load 0x0042 [0xFE, 0x01] ((boot [0x81, 0x40]).setA 0x9D)).setX 0x02) =
      some (0x9D, 0xFF) := by decide
theorem test_stx_zpy_wraps : -- LS11
    seen (fun t => t.memRead 0x0000) (((boot [0x96, 0xFF]).setX 0x07).setY 0x01) = some 0x07 := by decide
theorem test_stx_abs : -- LS12
    seen (fun t => (t.memRead 0x1234, t.p)) ((boot [0x8E, 0x34, 0x12]).setX 0x80) = some (0x80, 0x04) := by decide
theorem test_sty_zp : -- LS13
    seen (fun t => t.memRead 0x0040) ((boot [0x84, 0x40]).setY 0x33) = some 0x33 := by decide
theorem test_sty_zpx_wraps : -- LS14
    seen (fun t => t.memRead 0x0001) (((boot [0x94, 0xFF]).setX 0x02).setY 0x44) = some 0x44 := by decide
theorem test_tax : -- LS15
    seen (fun t => (t.x, t.p)) ((boot [0xAA]).setX 0x55) = some (0x00, 0x06) := by decide
theorem test_tay : -- LS16
    seen (fun t => (t.y, t.p)) ((boot [0xA8]).setA 0x9C) = some (0x9C, 0x84) := by decide
theorem test_txa : -- LS17
    seen (fun t => (t.a, t.p)) ((((boot [0x8A]).setA 0xFF).setX 0x7F).setP 0x84) = some (0x7F, 0x04) := by decide
theorem test_tya : -- LS18
    seen (fun t => (t.a, t.p)) ((boot [0x98]).setA 0x11) = some (0x00, 0x06) := by decide
theorem test_tsx : -- LS19
    seen (fun t => (t.x, t.p)) (boot [0xBA]) = some (0xFF, 0x84) := by decide
theorem test_tsx_zero : -- LS20
    seen (fun t => (t.x, t.p)) (((boot [0xBA]).setX 0x09).setSP 0x00) = some (0x00, 0x06) := by decide
theorem test_txs_zero : -- LS21
    seen (fun t => (t.sp, t.p)) (boot [0x9A]) = some (0x00, 0x04) := by decide
theorem test_txs_negative : -- LS22
    seen (fun t => (t.sp, t.p)) ((boot [0x9A]).setX 0x80) = some (0x80, 0x04) := by decide

/-! ## Arithmetic, logic, compare, bit test (spec/96, section 3.3) -/

theorem test_adc_overflow_both : -- AR6
    seen (fun t => (t.a, t.p)) ((boot [0x69, 0x80]).setA 0x80) = some (0x00, 0x47) := by decide
theorem test_adc_decimal_is_binary : -- AR15
    seen (fun t => (t.a, t.p)) (((boot [0x69, 0x01]).setA 0x99).setP 0x0C) = some (0x9A, 0x8C) := by decide
theorem test_sbc_borrow_overflow : -- AR19
    seen (fun t => (t.a, t.p)) (((boot [0xE9, 0xB0]).setA 0x50).setP 0x05) = some (0xA0, 0xC4) := by decide
theorem test_sbc_borrow_in : -- AR17
    seen (fun t => (t.a, t.p)) ((boot [0xE9, 0x03]).setA 0x05) = some (0x01, 0x05) := by decide
theorem test_and_zero : -- AR34
    seen (fun t => (t.a, t.p)) (((boot [0x29, 0x00]).setA 0xFF).setP 0xC5) = some (0x00, 0x47) := by decide
theorem test_ora_izx : -- AR38
    seen (fun t => (t.a, t.p)) (load 0x0500 [0x02] (load 0x0010 [0x00, 0x05] ((boot [0x01, 0x10]).setA 0x01))) =
      some (0x03, 0x04) := by decide
theorem test_eor_aby : -- AR41
    seen (fun t => (t.a, t.p)) ((load 0x0401 [0xF0] ((boot [0x59, 0x00, 0x04]).setA 0x0F)).setY 0x01) = some (0xFF, 0x84) := by
  decide
theorem test_cmp_less : -- AR45
    seen (fun t => (t.a, t.p)) (((boot [0xC9, 0x80]).setA 0x00).setP 0x45) = some (0x00, 0xC4) := by decide
theorem test_cmp_greater : -- AR44
    seen (fun t => (t.a, t.p)) ((boot [0xC9, 0x00]).setA 0x80) = some (0x80, 0x85) := by decide
theorem test_cpx_less : -- AR48
    seen (fun t => (t.x, t.p)) ((boot [0xE0, 0x03]).setX 0x02) = some (0x02, 0x84) := by decide
theorem test_cpy_greater : -- AR50
    seen (fun t => (t.y, t.p)) ((boot [0xC0, 0x08]).setY 0x10) = some (0x10, 0x05) := by decide
theorem test_bit_zero_and : -- AR53
    seen (fun t => (t.a, t.p)) ((load 0x0010 [0xC0] (boot [0x24, 0x10])).setA 0x3F) = some (0x3F, 0xC6) := by decide
theorem test_bit_v_only : -- AR52
    seen (fun t => t.p) ((load 0x0010 [0x41] (boot [0x24, 0x10])).setA 0x01) = some 0x44 := by decide

/-! ## Shifts, increments (spec/97, section 3.4) -/

theorem test_asl_acc : -- SH3
    seen (fun t => (t.a, t.p)) (((boot [0x0A]).setA 0xFF).setP 0x05) = some (0xFE, 0x85) := by decide
theorem test_asl_memory : -- SH4
    seen (fun t => (t.a, t.memRead 0x0010, t.p)) ((load 0x0010 [0x40] (boot [0x06, 0x10])).setA 0x77) = some (0x77, 0x80, 0x84) := by
  decide
theorem test_lsr_acc : -- SH7
    seen (fun t => (t.a, t.p)) (((boot [0x4A]).setA 0xFF).setP 0x84) = some (0x7F, 0x05) := by decide
theorem test_lsr_zpx_wraps : -- SH9
    seen (fun t => (t.memRead 0x0000, t.p)) ((load 0x0000 [0x02] (boot [0x56, 0x10])).setX 0xF0) = some (0x01, 0x04) := by decide
theorem test_rol_acc : -- SH10
    seen (fun t => (t.a, t.p)) (((boot [0x2A]).setA 0x40).setP 0x05) = some (0x81, 0x84) := by decide
theorem test_rol_memory : -- SH13
    seen (fun t => (t.memRead 0x0200, t.p)) ((load 0x0200 [0xFF] (boot [0x2E, 0x00, 0x02])).setP 0x05) = some (0xFF, 0x85) := by decide
theorem test_ror_acc : -- SH14
    seen (fun t => (t.a, t.p)) (((boot [0x6A]).setA 0x02).setP 0x05) = some (0x81, 0x84) := by decide
theorem test_ror_zpx : -- SH17
    seen (fun t => (t.memRead 0x0011, t.p)) (((load 0x0011 [0xFF] (boot [0x76, 0x10])).setX 0x01).setP 0x05) = some (0xFF, 0x85) := by
  decide
theorem test_inc_wraps : -- SH18
    seen (fun t => (t.memRead 0x0200, t.p)) ((load 0x0200 [0xFF] (boot [0xEE, 0x00, 0x02])).setP 0x05) = some (0x00, 0x07) := by decide
theorem test_dec_wraps : -- SH22
    seen (fun t => (t.memRead 0x0010, t.p)) (boot [0xC6, 0x10]) = some (0xFF, 0x84) := by decide
theorem test_inx_wraps : -- SH24
    seen (fun t => (t.x, t.p)) ((boot [0xE8]).setX 0xFF) = some (0x00, 0x06) := by decide
theorem test_iny_wraps : -- SH27
    seen (fun t => (t.y, t.p)) ((boot [0xC8]).setY 0xFF) = some (0x00, 0x06) := by decide
theorem test_dex_wraps : -- SH29
    seen (fun t => (t.x, t.p)) (boot [0xCA]) = some (0xFF, 0x84) := by decide
theorem test_dey : -- SH31
    seen (fun t => (t.y, t.p)) (((boot [0x88]).setY 0x80).setP 0x84) = some (0x7F, 0x04) := by decide

/-! ## Control transfer (spec/97, section 3.5) -/

theorem test_jmp_abs : -- CT1
    seen (fun t => (t.pc, t.result)) (boot [0x4C, 0x00, 0x80]) = some (0x8000, some { bytesConsumed := 3, error := none }) := by decide
theorem test_jmp_to_itself : -- CT2
    seen (fun t => t.pc) (boot [0x4C, 0x00, 0x06]) = some 0x0600 := by decide
theorem test_jsr_at_sp_zero : -- CT5
    seen (fun t => (t.memRead 0x0100, t.memRead 0x01FF, t.sp)) ((boot [0x20, 0x34, 0x12]).setSP 0x00) = some (0x06, 0x02, 0xFE) := by
  decide
theorem test_jsr_at_fffe : -- CT6
    seen (fun t => (t.memRead 0x01FF, t.memRead 0x01FE, t.pc)) (load 0xFFFE [0x20, 0x34, 0x12] (State.reset.setPC 0xFFFE)) =
      some (0x00, 0x00, 0x1234) := by decide
theorem test_rts_of_ffff : -- CT8
    seen (fun t => (t.pc, t.sp)) ((load 0x01FE [0xFF, 0xFF] (boot [0x60])).setSP 0xFD) = some (0x0000, 0xFF) := by decide
theorem test_rts_at_sp_ff : -- CT9
    seen (fun t => (t.pc, t.sp)) (load 0x0100 [0x33, 0x44] (boot [0x60])) = some (0x4434, 0x01) := by decide
theorem test_bpl : -- CT10, CT11
    seen (fun t => t.pc) (boot [0x10, 0x10]) = some 0x0612 ∧ seen (fun t => t.pc) ((boot [0x10, 0x10]).setP 0x84) = some 0x0602 := by
  decide
theorem test_bmi : -- CT12, CT13
    seen (fun t => t.pc) (boot [0x30, 0x10]) = some 0x0602 ∧ seen (fun t => t.pc) ((boot [0x30, 0x10]).setP 0x84) = some 0x0612 := by
  decide
theorem test_bvc : -- CT14, CT15
    seen (fun t => t.pc) (boot [0x50, 0x10]) = some 0x0612 ∧ seen (fun t => t.pc) ((boot [0x50, 0x10]).setP 0x44) = some 0x0602 := by
  decide
theorem test_bvs : -- CT16, CT17
    seen (fun t => t.pc) (boot [0x70, 0x10]) = some 0x0602 ∧ seen (fun t => t.pc) ((boot [0x70, 0x10]).setP 0x44) = some 0x0612 := by
  decide
theorem test_bcc : -- CT28, CT29
    seen (fun t => t.pc) (boot [0x90, 0x7F]) = some 0x0681 ∧ seen (fun t => t.pc) (boot [0x90, 0x80]) = some 0x0582 := by decide
theorem test_bcs : -- CT20, CT21
    seen (fun t => t.pc) (boot [0xB0, 0x10]) = some 0x0602 ∧ seen (fun t => t.pc) ((boot [0xB0, 0x10]).setP 0x05) = some 0x0612 := by
  decide
theorem test_bne : -- CT26, CT27
    seen (fun t => t.pc) (boot [0xD0, 0x00]) = some 0x0602 ∧ seen (fun t => t.pc) (boot [0xD0, 0xFE]) = some 0x0600 := by decide
theorem test_beq : -- CT24, CT25
    seen (fun t => t.pc) (boot [0xF0, 0x10]) = some 0x0602 ∧ seen (fun t => t.pc) ((boot [0xF0, 0x10]).setP 0x06) = some 0x0612 := by
  decide
theorem test_brk_pushes : -- CT31
    seen (fun t => (t.memRead 0x0101, t.memRead 0x0100, t.memRead 0x01FF)) (((boot [0x00]).setSP 0x01).setP 0xC3) =
      some (0x06, 0x02, 0xD3) := by decide
theorem test_brk_enters : -- CT30
    seen (fun t => (t.pc, t.p, t.sp)) (load 0xFFFE [0x00, 0x90] (boot [0x00])) = some (0x9000, 0x14, 0xFC) := by decide
theorem test_rti : -- CT33
    seen (fun t => (t.pc, t.p, t.sp)) (((load 0x01FD [0xFF, 0x34, 0x12] (boot [0x40])).setSP 0xFC).setP 0x00) =
      some (0x1234, 0xFF, 0xFF) := by decide

/-! ## Stack, flags, nop (spec/97, section 3.6) -/

theorem test_pha_at_sp_zero : -- SF2, source example S5
    seen (fun t => (t.memRead 0x0100, t.sp)) (((boot [0x48]).setA 0x99).setSP 0x00) = some (0x99, 0xFF) := by decide
theorem test_php_raw : -- SF3
    seen (fun t => (t.memRead 0x0110, t.sp)) (((boot [0x08]).setP 0x83).setSP 0x10) = some (0x83, 0x0F) := by decide
theorem test_pla_at_sp_ff : -- SF6
    seen (fun t => (t.a, t.sp, t.p)) (load 0x0100 [0x80] (boot [0x68])) = some (0x80, 0x00, 0x84) := by decide
theorem test_plp_ones : -- SF8
    seen (fun t => t.p) ((load 0x01FF [0xFF] (boot [0x28])).setSP 0xFE) = some 0xFF := by decide
theorem test_plp_zeros : -- SF9
    seen (fun t => t.p) (((boot [0x28]).setSP 0xFE).setP 0xFF) = some 0x00 := by decide
theorem test_clc : seen (fun t => t.p) ((boot [0x18]).setP 0x05) = some 0x04 := by decide -- SF10
theorem test_sec : seen (fun t => t.p) (boot [0x38]) = some 0x05 := by decide -- SF11
theorem test_cli : seen (fun t => t.p) (boot [0x58]) = some 0x00 := by decide -- SF12
theorem test_sei : seen (fun t => t.p) ((boot [0x78]).setP 0x00) = some 0x04 := by decide -- SF13
theorem test_cld : seen (fun t => t.p) ((boot [0xD8]).setP 0x0C) = some 0x04 := by decide -- SF14
theorem test_sed : seen (fun t => t.p) (boot [0xF8]) = some 0x0C := by decide -- SF15
theorem test_clv : seen (fun t => t.p) ((boot [0xB8]).setP 0xFF) = some 0xBF := by decide -- SF17
theorem test_nop : -- SF18
    seen (fun t => (t.setPC 0x0600).setResult none) ((boot [0xEA]).setP 0xFF) = some ((boot [0xEA]).setP 0xFF) := by decide

/-! ## The decode failure, resets, transactions, text -/

theorem test_invalid_changes_nothing : -- EX2
    seen (fun t => t.setResult none) ((boot [0x02]).setP 0xC5) = some ((boot [0x02]).setP 0xC5) := by decide
theorem test_invalid_reports : -- EX1
    seen (fun t => t.result) (boot [0xFF]) = some (some { bytesConsumed := 0, error := some .unimplementedOpcode }) := by decide
theorem test_soft_reset : -- RS1, source example S3
    (((load 0xFFFC [0x34, 0x12] State.reset).setP 0xC1).softReset).pc = 0x1234 ∧
    (((load 0xFFFC [0x34, 0x12] State.reset).setP 0xC1).softReset).p = 0xC5 := by decide
theorem test_hard_reset : -- RS2, source example S4
    (((load 0xFFFC [0x34, 0x12] (State.reset.setA 0x11)).setP 0xFB).hardReset).p = 0x04 ∧
    (((load 0xFFFC [0x34, 0x12] (State.reset.setA 0x11)).setP 0xFB).hardReset).a = 0x00 := by decide
theorem test_transactions_of_inc : -- SH20
    stepTransactions ((boot [0xFE, 0x00, 0x02]).setX 0xFF) =
      [.read 0x0600 0xFE, .read 0x0601 0x00, .read 0x0602 0x02, .read 0x02FF 0x00, .write 0x02FF 0x01] := by decide
theorem test_transactions_of_brk : -- CT30
    stepTransactions (load 0xFFFE [0x00, 0x90] (boot [0x00])) =
      [.read 0x0600 0x00, .write 0x01FF 0x06, .write 0x01FE 0x02, .write 0x01FD 0x14, .read 0xFFFE 0x00, .read 0xFFFF 0x90] := by
  decide
theorem test_transactions_of_sta_izy : -- AM23
    stepTransactions ((load 0x0022 [0x00, 0x04] ((boot [0x91, 0x22]).setA 0xAB)).setY 0x03) =
      [.read 0x0600 0x91, .read 0x0601 0x22, .read 0x0022 0x00, .read 0x0023 0x04, .write 0x0403 0xAB] := by decide
theorem test_transactions_of_an_invalid_byte : -- EX3: the operand byte is not read
    stepTransactions (boot [0x80, 0x10]) = [.read 0x0600 0x80] := by decide
theorem test_text_lda : (Instr.lda (.imm 0x05)).text = ['l', 'd', 'a', ' ', '#', '$', '0', '5'] := by decide -- R61, S8
theorem test_text_bne : (Instr.bne 0xFD).text = ['b', 'n', 'e', ' ', '-', '3'] := by decide -- R61
theorem test_text_ldx : -- R63
    (Instr.ldx (.mem (.zpy 0x10))).text = ['l', 'd', 'x', ' ', '$', '1', '0', ',', ' ', 'Y'] := by decide
theorem test_text_izy : -- R61
    (Instr.lda (.mem (.izy 0x10))).text = ['l', 'd', 'a', ' ', '(', '$', '1', '0', ')', ',', ' ', 'Y'] := by decide
theorem test_text_absolute_is_not_zero_page : -- R62
    parseText ['l', 'd', 'a', ' ', '$', '0', '0', '1', '0'] = some (.lda (.mem (.abs 0x0010))) := by decide
theorem test_text_absent_pair : -- R62: no `ldx $10, X`
    parseText ['l', 'd', 'x', ' ', '$', '1', '0', ',', ' ', 'X'] = none := by decide
theorem test_text_invalid : -- R64, S6
    disassembly (.invalid 0xFF) = { text := none, length := 1, isValid := false } := by decide

/-! ## The hypotheses of each statement are met -/

theorem test_meets_StoresWriteOneByteAndNoFlag :
    fetchInstr (boot [0x8D, 0x00, 0x02]) = .sta (.abs 0x0200) := by decide

theorem test_meets_BitTestReadsMemoryBits :
    ∃ t, exec (.bit (.zp 0x10)) (load 0x0010 [0x41] State.reset) = .next t ∧
      t.flag .v ≠ (load 0x0010 [0x41] State.reset).flag .v := ⟨_, rfl, by decide⟩

/-- The callee may change PC and more; here SP was 0, so the two stack bytes lie at both ends of the page. -/
theorem test_meets_JsrThenRtsReturnsAfterTheCall :
    ∃ t, exec (.jsr 0x0700) (State.reset.setSP 0x00) = .next t ∧ ((t.setPC 0x0720).setA 0x05).sp = t.sp ∧
      ((t.setPC 0x0720).setA 0x05).memRead (stackAddr 0x00) = t.memRead (stackAddr 0x00) ∧
      ((t.setPC 0x0720).setA 0x05).memRead (stackAddr (0x00 - 1)) = t.memRead (stackAddr (0x00 - 1)) :=
  ⟨_, rfl, rfl, rfl, rfl⟩

/-- SP was 1, so the pushes wrap inside the stack page. -/
theorem test_meets_BrkThenRtiReturns :
    ∃ t, exec .brk (State.reset.setSP 0x01) = .next t ∧ ((t.setPC 0x9005).setX 0x07).sp = t.sp ∧
      ∀ b, b ∈ [stackAddr 0x01, stackAddr (0x01 - 1), stackAddr (0x01 - 2)] →
        ((t.setPC 0x9005).setX 0x07).memRead b = t.memRead b := ⟨_, rfl, rfl, fun _ _ => rfl⟩

theorem test_meets_PhpThenPlpRestoresStatus :
    ∃ t, exec .php (State.reset.setSP 0x00) = .next t ∧ ((t.setPC 0x0700).setP 0xFF).sp = t.sp ∧
      ((t.setPC 0x0700).setP 0xFF).memRead (stackAddr 0x00) = t.memRead (stackAddr 0x00) := ⟨_, rfl, rfl, rfl⟩

theorem test_meets_NopOnlyAdvances_fetch : fetchInstr (boot [0xEA]) = .nop := by decide

theorem test_meets_NopOnlyAdvances_opcode :
    (0xEA : Byte) ∉ invalidBytes ∧ ∀ (b1 b2 : Byte) (s t : State), exec (decodeBytes 0xEA b1 b2) s = .next t →
      s.sameCore (t.setPC s.pc) ∧ t.pc = s.pc + BitVec.ofNat 16 (opcodeLen 0xEA) := by
  refine ⟨by decide, fun b1 b2 s t h => ?_⟩
  cases h
  exact ⟨rfl, rfl⟩

theorem test_meets_DecodeFailureRepeatsUntilTheHostActs :
    (boot [0xFF]).memRead (boot [0xFF]).pc ∈ invalidBytes ∧
    (load 0xFFFF [0x02] (State.reset.setPC 0xFFFF)).memRead 0xFFFF ∈ invalidBytes := by decide

theorem test_meets_PushWritesInTheStackPage : (State.reset.setSP 0x00).sp = 0 := by decide

theorem test_meets_WordAccessIsLittleEndian : (0x0001 : Word) ≠ 0xFFFF ∧ (0x0001 : Word) ≠ 0xFFFF + 1 := by decide

/-- One `sta` at 0x0600 for each clause: onto the next opcode, the next operand byte, the one after it. -/
theorem test_meets_StoreIsSeenByTheNextFetch :
    effectiveAddr (.abs 0x0603) (boot [0x8D, 0x03, 0x06]) = (boot [0x8D, 0x03, 0x06]).pc + 3 ∧
    effectiveAddr (.abs 0x0604) (boot [0x8D, 0x04, 0x06]) = (boot [0x8D, 0x04, 0x06]).pc + 3 + 1 ∧
    effectiveAddr (.abs 0x0605) (boot [0x8D, 0x05, 0x06]) = (boot [0x8D, 0x05, 0x06]).pc + 3 + 2 := by decide

theorem test_meets_ImmediateIsTheOperandByte :
    fetchInstr (boot [0xA9, 0x42]) = .lda (.imm 0x42) ∧ fetchInstr (boot [0xC0, 0xFF]) = .cpy (.imm 0xFF) := by decide

theorem test_meets_DecodeOfEncodeIsTheInstruction :
    (Instr.lda (.mem (.aby 0xFFFF))).wellFormed = true ∧ (Instr.invalid 0xFF).wellFormed = true := by decide

theorem test_meets_EncodeOfDecodeIsTheBytes : decode [0xBE, 0x00, 0x03, 0xEA] = .instr (.ldx (.mem (.aby 0x0300))) [0xEA] := by
  decide

theorem test_meets_OpcodePairsAreDistinct :
    (0xA9 : Byte) ∉ invalidBytes ∧ (decodeBytes 0xA9 0 0).mnemonicText = (decodeBytes 0xA9 0 0).mnemonicText ∧
    opcodeMode 0xA9 = opcodeMode 0xA9 := by decide

theorem test_meets_InvalidBytesAreExactlyTheListed : (0x02 : Byte) ∈ invalidBytes ∧ (0xFF : Byte) ∈ invalidBytes := by decide

theorem test_meets_TextDeterminesTheInstruction :
    (Instr.beq 0x80).wellFormed = true ∧ isInvalid (.beq 0x80) = false := by decide

theorem test_meets_StepRunsTheDecodedInstruction :
    decode [(boot [0xA9, 0x05]).memRead 0x0600, (boot [0xA9, 0x05]).memRead 0x0601, (boot [0xA9, 0x05]).memRead 0x0602] =
      .instr (.lda (.imm 0x05)) [0x00] ∧
    decode [(boot [0xFF]).memRead 0x0600, (boot [0xFF]).memRead 0x0601, (boot [0xFF]).memRead 0x0602] =
      .instr (.invalid 0xFF) [0x00, 0x00] := by decide

theorem test_meets_EveryStepKeepsGoodStates :
    (boot [0x85, 0x10]).good = true ∧ ∃ t, step (boot [0x85, 0x10]) = .next t := ⟨by decide, _, rfl⟩

theorem test_meets_HostRunsCompleteAndKeepGoodStates : (boot [0xFF]).good = true := by decide

theorem test_meets_ResetStateIsAfterHardReset : ((State.reset.setA 0x11).setPC 0xABCD).mem = [] := rfl

theorem test_meets_ReportIsTheInstructionLength_success :
    (boot [0x4C, 0x00, 0x80]).memRead 0x0600 ∉ invalidBytes ∧ (∃ t, step (boot [0x4C, 0x00, 0x80]) = .next t) ∧
    isInvalid (.jmp (.abs 0x8000)) = false := ⟨by decide, ⟨_, rfl⟩, rfl⟩

theorem test_meets_ReportIsTheInstructionLength_failure :
    (boot [0xFF]).memRead 0x0600 ∈ invalidBytes ∧ ∃ t, step (boot [0xFF]) = .next t := ⟨by decide, _, rfl⟩

theorem test_meets_StoredFlagsHaveNoEffect :
    (∀ f : Flag, f ∈ [Flag.u, Flag.b, Flag.d, Flag.i] → f ∉ flagsWritten (.adc (.imm 0x01))) ∧
    Instr.adc (.imm 0x01) ≠ .php ∧ Instr.adc (.imm 0x01) ≠ .brk ∧
    ∃ t, exec (.adc (.imm 0x01)) State.reset = .next t := by
  refine ⟨?_, by decide, by decide, _, rfl⟩
  intro f hf
  cases f <;> first | decide | exact absurd hf (by decide)

theorem test_meets_FlagsChangeOnlyAsTabled :
    (∃ t, exec .brk State.reset = .next t) ∧ Flag.c ∉ flagsWritten .brk := ⟨⟨_, rfl⟩, by decide⟩

theorem test_meets_RegistersChangeOnlyByTheirWriters :
    (∃ t, exec .pla State.reset = .next t) ∧ Reg.x ∉ regsWritten .pla := ⟨⟨_, rfl⟩, by decide⟩

theorem test_meets_MemoryChangesOnlyWhereStored :
    (∃ t, exec (.inc (.zpx 0xFF)) (State.reset.setX 0x01) = .next t) ∧
    (0x0100 : Word) ∉ storedAddrs (.inc (.zpx 0xFF)) (State.reset.setX 0x01) := ⟨⟨_, rfl⟩, by decide⟩

theorem test_meets_MemoryChangesOnlyWhereStored_stack :
    (0x0100 : Word) ∈ storedAddrs .pha (State.reset.setSP 0x00) ∧
    (0x01FF : Word) ∈ storedAddrs (.jsr 0x1234) (State.reset.setSP 0x00) := by decide

theorem test_meets_PcAdvancesUnlessSet :
    (mayLeaveSequence .nop = false ∧ ∃ t, exec .nop (State.reset.setPC 0xFFFF) = .next t) ∧
    ∃ t, exec (.beq 0x10) (State.reset.setPC 0xFFFE) = .next t := ⟨⟨rfl, _, rfl⟩, _, rfl⟩

theorem test_meets_TransactionsReplayTheStep : ∃ t, step (boot [0xEE, 0x00, 0x02]) = .next t := ⟨_, rfl⟩

end Sys2Proof.Tests
end

section
/-! PROOFS. The result port's last answer is an output only (R26): no operand is read from it, and every outcome ends in
`State.finish` or `State.raiseUnimplemented`, which overwrite it. So a step and the resets do not depend on it. -/

namespace Sys2Proof.Machine

@[simp] theorem effectiveAddr_setResult (m : MemOperand) (s : State) (r : Option Report) :
    effectiveAddr m (s.setResult r) = effectiveAddr m s := by
  cases m <;> rfl

@[simp] theorem readValue_setResult (o : ReadOperand) (s : State) (r : Option Report) :
    readValue o (s.setResult r) = readValue o s := by
  cases o with
  | imm v => rfl
  | mem m => exact congrArg s.memRead (effectiveAddr_setResult m s r)

@[simp] theorem shiftValue_setResult (o : ShiftOperand) (s : State) (r : Option Report) :
    shiftValue o (s.setResult r) = shiftValue o s := by
  cases o with
  | acc => rfl
  | mem m => exact congrArg s.memRead (effectiveAddr_setResult m s r)

@[simp] theorem jumpTarget_setResult (t : JumpOperand) (s : State) (r : Option Report) :
    jumpTarget t (s.setResult r) = jumpTarget t s := by
  cases t <;> rfl

@[simp] theorem fetchInstr_setResult (s : State) (r : Option Report) : fetchInstr (s.setResult r) = fetchInstr s := rfl

/-- A shift stores its value and keeps the port's answer as it was. -/
theorem storeShift_setResult (o : ShiftOperand) (v : Byte) (s : State) (r : Option Report) :
    storeShift o v (s.setResult r) = (storeShift o v s).setResult r := by
  cases o with
  | acc => rfl
  | mem m => exact congrArg (fun a => (s.memWrite a v).setResult r) (effectiveAddr_setResult m s r)

/-- The end of a step overwrites the port's answer: it sees the core only. -/
theorem State.finish_eq_of_sameCore {t u : State} (h : t.sameCore u) (len : Nat) (target : Option Word) :
    t.finish len target = u.finish len target :=
  calc t.finish len target = (t.setResult none).finish len target := rfl
    _ = (u.setResult none).finish len target := congrArg (fun s : State => s.finish len target) h

theorem implied_eq_of_sameCore {t u : State} (h : t.sameCore u) : implied t = implied u :=
  congrArg Host.Outcome.next (State.finish_eq_of_sameCore h _ _)

theorem withOperand_setResult {o : ReadOperand} {s : State} {r : Option Report} {f : Byte → State → State}
    (hf : ∀ m, (f m (s.setResult r)).sameCore (f m s)) : withOperand o (s.setResult r) f = withOperand o s f := by
  simp only [withOperand, readValue_setResult, State.finish_eq_of_sameCore (hf _)]

theorem storeByte_setResult (m : MemOperand) (v : Byte) (s : State) (r : Option Report) :
    storeByte m v (s.setResult r) = storeByte m v s := by
  simp only [storeByte, effectiveAddr_setResult]
  rfl

theorem modifyStep_setResult (m : MemOperand) (v : Byte) (s : State) (r : Option Report) :
    modifyStep m v (s.setResult r) = modifyStep m v s := by
  simp only [modifyStep, effectiveAddr_setResult]
  rfl

theorem shiftStep_setResult (o : ShiftOperand) (v : Shifted) (s : State) (r : Option Report) :
    shiftStep o v (s.setResult r) = shiftStep o v s := by
  simp only [shiftStep, storeShift_setResult]
  rfl

theorem branchIf_setResult (taken : Bool) (off : Byte) (s : State) (r : Option Report) :
    branchIf taken off (s.setResult r) = branchIf taken off s := rfl

/-- No instruction reads the port's last answer, one case per shape of step. -/
@[simp] theorem exec_setResult (i : Instr) (s : State) (r : Option Report) : exec i (s.setResult r) = exec i s := by
  cases i with
  | lda o | ldx o | ldy o | adc o | sbc o | and o | ora o | eor o | cmp o | cpx o | cpy o | bit m =>
    simp only [exec, execLda, execLdx, execLdy, execAdc, execSbc, execAnd, execOra, execEor, logicStep, execCmp,
      execCpx, execCpy, compareStep, execBit]
    exact withOperand_setResult fun _ => rfl
  | sta m | stx m | sty m => exact storeByte_setResult m _ s r
  | inc m | dec m =>
    simp only [exec, execInc, execDec, effectiveAddr_setResult]
    exact modifyStep_setResult m _ s r
  | asl o | lsr o | rol o | ror o =>
    simp only [exec, execAsl, execLsr, execRol, execRor, shiftValue_setResult]
    exact shiftStep_setResult o _ s r
  | bpl off | bmi off | bvc off | bvs off | bcc off | bcs off | bne off | beq off =>
    exact branchIf_setResult _ off s r
  | tax | tay | txa | tya | tsx | txs | inx | iny | dex | dey | pha | php | pla | plp | clc | sec | cli | sei | cld
  | sed | clv | nop => exact implied_eq_of_sameCore rfl
  | jmp t =>
    simp only [exec, execJmp, jumpTarget_setResult]
    rfl
  | jsr _ | rts | brk | rti | invalid _ => rfl

@[simp] theorem step_setResult (s : State) (r : Option Report) : step (s.setResult r) = step s := by
  simp only [step, fetchInstr_setResult, exec_setResult]

/-- `SoftReset` clears the port's answer, whatever it was (R4, R230). -/
@[simp] theorem State.softReset_setResult (s : State) (r : Option Report) :
    (s.setResult r).softReset = s.softReset := rfl

/-- `HardReset` ends in `SoftReset`, which clears the port's answer (R231). -/
@[simp] theorem State.hardReset_setResult (s : State) (r : Option Report) :
    (s.setResult r).hardReset = s.hardReset := rfl

/-- Settles O53: the step by one case per shape of instruction, the resets because they clear the port's answer. -/
theorem resultPortIsNeverRead : Obligations.ResultPortIsNeverRead :=
  fun s r => ⟨step_setResult s r, State.softReset_setResult s r, State.hardReset_setResult s r⟩

end Sys2Proof.Machine
end

section
/-! PROOFS. What `HardReset` leaves (R231): it keeps the memory, takes PC from the reset vector, and gives every other
register the value it has in `State.reset`. -/

namespace Sys2Proof.Machine

/-- Setting I over the baseline gives the status word of `State.reset` (R231). -/
theorem writeFlag_pBaseline_i : writeFlag Config.pBaseline .i true = Config.pBaseline ||| 0x04 := by decide

/-- The state before `HardReset` survives only in the memory, which also gives PC (R230, R231). -/
theorem State.hardReset_eq (s : State) :
    s.hardReset = { State.reset with pc := s.memReadWord Config.resetVector, mem := s.mem } :=
  congrArg (fun p => { State.reset with pc := s.memReadWord Config.resetVector, mem := s.mem, p := p })
    writeFlag_pBaseline_i

/-- Settles O51: only the memory is left to compare, and over the empty one PC is the word `State.reset` reads. -/
theorem resetStateIsAfterHardReset : Obligations.ResetStateIsAfterHardReset := by
  intro s hmem
  have hpc : s.memReadWord Config.resetVector = State.reset.pc := congrArg (·.readWord Config.resetVector) hmem
  rw [State.hardReset_eq, hpc, hmem]
  rfl

end Sys2Proof.Machine
end

section
/-! PROOFS. What every instruction does, said once: it answers a next state (R32, R202), reached by storing one byte at
each address of R45's table in turn (`storedAddrs`), with the report of R4 and R200. The invariant, the memory frame and
the totality of `Execute` all follow from this one case split over the instructions. -/

namespace Sys2Proof.Machine

/-- `m'` is what storing some byte at each of the addresses in turn leaves of `m`. -/
inductive Memory.StoredAt : List Word → Memory → Memory → Prop where
  | nil (m : Memory) : Memory.StoredAt [] m m
  | cons (a : Word) (v : Byte) {addrs : List Word} {m m' : Memory} (h : Memory.StoredAt addrs (m.write a v) m') :
      Memory.StoredAt (a :: addrs) m m'

/-- One store. -/
theorem Memory.StoredAt.one (m : Memory) (a : Word) (v : Byte) : Memory.StoredAt [a] m (m.write a v) :=
  .cons a v (.nil _)

/-- Stores keep the canonical form. -/
theorem Memory.StoredAt.wf {addrs : List Word} {m m' : Memory} (h : Memory.StoredAt addrs m m') (hm : m.wf = true) :
    m'.wf = true := by
  induction h with
  | nil m => exact hm
  | cons a v _ ih => exact ih (Memory.wf_write _ a v hm)

/-- Stores leave every address they do not name alone. -/
theorem Memory.StoredAt.read_other {addrs : List Word} {m m' : Memory} (h : Memory.StoredAt addrs m m') {b : Word}
    (hb : b ∉ addrs) : m'.read b = m.read b := by
  induction h with
  | nil m => rfl
  | cons a v _ ih =>
    have hab : a ≠ b := (List.ne_of_not_mem_cons hb).symm
    rw [ih (List.not_mem_of_not_mem_cons hb), Memory.read_write_other _ a b v hab]

/-- The report of an executed instruction: its length, or 0 with the error for the decode failure (R4, R89, R200). -/
def reportOf (i : Instr) : Report :=
  if isInvalid i then { bytesConsumed := 0, error := some .unimplementedOpcode }
  else { bytesConsumed := i.len, error := none }

theorem mode_len_bounds (m : Mode) : 1 ≤ m.len ∧ m.len ≤ 3 := by
  cases m <;> decide

theorem reportOf_legal (i : Instr) : (reportOf i).legal = true := by
  have hlen : 1 ≤ i.len ∧ i.len ≤ 3 := mode_len_bounds i.mode
  unfold reportOf
  split
  · rfl
  · simpa [Report.legal] using hlen

/-- The two pushes of a word store its high byte at the slot SP names, its low byte one below (R93). -/
theorem State.storedAt_pushWord (s : State) (w : Word) :
    Memory.StoredAt [stackAddr s.sp, stackAddr (s.sp - 1)] s.mem (s.pushWord w).mem :=
  .cons _ _ (.one _ _ _)

/-- The break entry stores three bytes downwards from the slot SP names (R173). -/
theorem State.storedAt_enterBreak (s : State) :
    Memory.StoredAt [stackAddr s.sp, stackAddr (s.sp - 1), stackAddr (s.sp - 2)] s.mem s.enterBreak.mem := by
  have hslot : s.sp - 1 - 1 = s.sp - 2 := by bv_omega
  rw [State.enterBreak_mem, hslot]
  exact .cons _ _ (.cons _ _ (.one _ _ _))

/-- What `exec` answers, one case per shape of instruction: a next state, with the stores of R45 and the report. -/
theorem exec_answers (i : Instr) (s : State) :
    ∃ t, exec i s = .next t ∧ Memory.StoredAt (storedAddrs i s) s.mem t.mem ∧ t.result = some (reportOf i) := by
  cases i with
  | lda o | ldx o | ldy o | adc o | sbc o | and o | ora o | eor o | cmp o | cpx o | cpy o | bit m =>
    exact ⟨_, rfl, .nil _, rfl⟩
  | sta m | stx m | sty m | inc m | dec m => exact ⟨_, rfl, .one _ _ _, rfl⟩
  | asl o | lsr o | rol o | ror o =>
    cases o with
    | acc => exact ⟨_, rfl, .nil _, rfl⟩
    | mem m => exact ⟨_, rfl, .one _ _ _, rfl⟩
  | pha | php => exact ⟨_, rfl, .one _ _ _, rfl⟩
  | jsr w => exact ⟨_, rfl, s.storedAt_pushWord _, rfl⟩
  | brk => exact ⟨_, rfl, s.storedAt_enterBreak, rfl⟩
  | bpl off | bmi off | bvc off | bvs off | bcc off | bcs off | bne off | beq off | jmp t | rts | rti =>
    exact ⟨_, rfl, .nil _, rfl⟩
  | tax | tay | txa | tya | tsx | txs | inx | iny | dex | dey | pla | plp | clc | sec | cli | sei | cld | sed | clv
  | nop => exact ⟨_, rfl, .nil _, rfl⟩
  | invalid op => exact ⟨_, rfl, .nil _, rfl⟩

/-- An instruction that answers `t` has made R45's stores and given its report. -/
theorem exec_next {i : Instr} {s t : State} (h : exec i s = .next t) :
    Memory.StoredAt (storedAddrs i s) s.mem t.mem ∧ t.result = some (reportOf i) := by
  obtain ⟨u, hu, hdone⟩ := exec_answers i s
  obtain rfl : u = t := Host.Outcome.next.inj (hu.symm.trans h)
  exact hdone

theorem exec_memKept {i : Instr} {s t : State} (h : exec i s = .next t) : s.memKept t (storedAddrs i s) :=
  fun _ hb => (exec_next h).1.read_other hb

/-- An instruction keeps the invariant: its stores keep the canonical form, and its report is legal. -/
theorem exec_good {i : Instr} {s t : State} (hs : s.good = true) (h : exec i s = .next t) : t.good = true := by
  obtain ⟨hstored, hresult⟩ := exec_next h
  have hmem : s.mem.wf = true := (Bool.and_eq_true_iff.mp hs).1
  simp [State.good, hstored.wf hmem, hresult, reportOf_legal]

/-- Settles O45: a step is `exec` of the fetched instruction, and every instruction keeps the invariant. -/
theorem everyStepKeepsGoodStates : Obligations.EveryStepKeepsGoodStates :=
  fun _ _ hs hstep => exec_good hs hstep

/-- No instruction faults or is refused (R32, R202). -/
theorem exec_total (i : Instr) (s : State) : ∃ t, exec i s = .next t :=
  (exec_answers i s).imp fun _ ⟨hexec, _⟩ => hexec

theorem step_total (s : State) : ∃ t, step s = .next t := exec_total (fetchInstr s) s

/-- No host action fails: a command is a step or a reset, and the resets and writes answer outright (R210, R232). -/
theorem hostAct_total (h : HostAction) (s : State) : ∃ t, hostAct h s = .next t := by
  cases h with
  | command c =>
    cases c with
    | execute => exact step_total s
    | softReset | hardReset => exact ⟨_, rfl⟩
  | write w => exact ⟨_, rfl⟩

/-- Settles O44: instructions, steps and host actions in turn. -/
theorem everyStepAnswersANextState : Obligations.EveryStepAnswersANextState :=
  ⟨exec_total, step_total, hostAct_total⟩

/-- The stack page is 0x0100 to 0x01FF (R13, R40). -/
theorem stackAddr_in_page (sp : Byte) : 0x0100 ≤ (stackAddr sp).toNat ∧ (stackAddr sp).toNat ≤ 0x01FF := by
  have hsp := sp.isLt
  rw [stackAddr_toNat]
  omega

/-- The instructions that push store at stack slots only (R40). -/
theorem storedAddrs_of_push {i : Instr} (s : State) (hi : i ∈ [Instr.pha, Instr.php, Instr.brk] ∨ ∃ w, i = .jsr w) :
    ∃ slots : List Byte, storedAddrs i s = slots.map stackAddr := by
  simp only [List.mem_cons, List.not_mem_nil, or_false] at hi
  rcases hi with (rfl | rfl | rfl) | ⟨w, rfl⟩
  · exact ⟨[s.sp], rfl⟩
  · exact ⟨[s.sp], rfl⟩
  · exact ⟨[s.sp, s.sp - 1, s.sp - 2], rfl⟩
  · exact ⟨[s.sp, s.sp - 1], rfl⟩

/-- Settles O58: the frame of R45's stores; those of the stack instructions lie in the stack page. -/
theorem memoryChangesOnlyWhereStored : Obligations.MemoryChangesOnlyWhereStored := by
  refine ⟨fun i s t h => exec_memKept h, fun i s b hi hb => ?_⟩
  obtain ⟨slots, hslots⟩ := storedAddrs_of_push s hi
  obtain ⟨sp, -, rfl⟩ := List.mem_map.mp (hslots ▸ hb)
  exact stackAddr_in_page sp

end Sys2Proof.Machine
end

section
/-! PROOFS. A store is seen by the next fetch (R44): the fetch reads the memory the store has left, where the stored byte
stands at the effective address and every other byte is as before. -/

namespace Sys2Proof.Machine

/-- A read after a store instruction (R46, R104). -/
theorem storeByte_memRead {m : MemOperand} {v : Byte} {s t : State} (h : storeByte m v s = .next t) (b : Word) :
    t.memRead b = if effectiveAddr m s = b then v else s.memRead b := by
  rw [storeByte_next m v s t h]
  exact State.memRead_memWrite s (effectiveAddr m s) b v

/-- Settles O35: of the three addresses the fetch reads, the effective address is the one each clause names. -/
theorem storeIsSeenByTheNextFetch : Obligations.StoreIsSeenByTheNextFetch := by
  intro m s
  obtain ⟨t, ht⟩ : ∃ t, exec (.sta m) s = .next t := ⟨_, rfl⟩
  have hread : ∀ b, t.memRead b = if effectiveAddr m s = b then s.a else s.memRead b := storeByte_memRead ht
  refine ⟨t, ht, fun heq => ?_, fun heq => ?_, fun heq => ?_⟩ <;> simp [step, fetchInstr, hread, heq]

end Sys2Proof.Machine
end

section
/-! PROOFS. Decoder and encoder agree (R50, R56 to R59). The split over the instructions is made on the encoder's side:
R57's table gives an instruction its opcode, and R58's decoder reads that byte back. That every byte is some
instruction's opcode is a closed fact about the 256 bytes; the operand bytes then follow from the mode alone. -/

namespace Sys2Proof
open Sys2Proof.Machine

/-! ## The operand bytes -/

@[simp] theorem wordBytes_joinBytes (hi lo : Byte) : wordBytes (joinBytes hi lo) = [lo, hi] := by
  simp [wordBytes]

/-- The two operand bytes name one word (R34, R54). -/
theorem eq_joinBytes_of_wordBytes {w : Word} {lo hi : Byte} (h : wordBytes w = [lo, hi]) : w = joinBytes hi lo := by
  obtain ⟨rfl, rfl⟩ : loByte w = lo ∧ hiByte w = hi := by simpa [wordBytes] using h
  exact (joinBytes_bytes w).symm

theorem MemOperand.bytes_length (m : MemOperand) : m.bytes.length + 1 = m.mode.len := by
  cases m <;> rfl

/-- The operand bytes fill the instruction up to `Len(mode)` (R52). -/
theorem Instr.operandBytes_length (i : Instr) : i.operandBytes.length + 1 = i.len := by
  cases i with
  | adc o | and o | cmp o | cpx o | cpy o | eor o | lda o | ldx o | ldy o | ora o | sbc o =>
    cases o with
    | imm v => rfl
    | mem m => exact m.bytes_length
  | asl o | lsr o | rol o | ror o =>
    cases o with
    | acc => rfl
    | mem m => exact m.bytes_length
  | bit m | dec m | inc m | sta m | stx m | sty m => exact m.bytes_length
  | jmp t => cases t <;> rfl
  | _ => rfl

/-! ## Which instructions have an opcode -/

/-- An instruction has an opcode just when it exists (R57, R59). -/
theorem Instr.isSome_opcode (i : Instr) : i.opcode.isSome = i.wellFormed := by
  cases i with
  | adc o | and o | cmp o | cpx o | cpy o | eor o | lda o | ldx o | ldy o | ora o | sbc o =>
    cases o with
    | imm v => rfl
    | mem m => cases m <;> rfl
  | asl o | lsr o | rol o | ror o =>
    cases o with
    | acc => rfl
    | mem m => cases m <;> rfl
  | bit m | dec m | inc m | sta m | stx m | sty m => cases m <;> rfl
  | jmp t => cases t <;> rfl
  | invalid op =>
    simp only [Instr.opcode, Instr.wellFormed]
    split <;> simp [*]
  | _ => rfl

theorem encode_of_opcode {i : Instr} {op : Byte} (h : i.opcode = some op) : encode i = some (op :: i.operandBytes) := by
  simp [encode, h]

/-- The bytes of R59 are the decode failure, whatever follows. -/
theorem decodeBytes_of_mem_invalidBytes {op : Byte} (h : op ∈ invalidBytes) (b1 b2 : Byte) :
    decodeBytes op b1 b2 = .invalid op := by
  fin_cases h <;> rfl

/-! ## One row of the tables -/

/-- Of the two bytes after the opcode, those that belong to an instruction of this mode (R52). -/
def Mode.operandsOf (m : Mode) (b1 b2 : Byte) : List Byte := [b1, b2].take (m.len - 1)

/-- The decoder's row of `op` is the encoder's row of `i`: what it reads has this opcode and mode and the operand bytes
it was given, and it is `i` when these are the operand bytes of `i`. -/
structure DecodesRow (op : Byte) (i : Instr) (b1 b2 : Byte) : Prop where
  opcode : (decodeBytes op b1 b2).opcode = some op
  mode : (decodeBytes op b1 b2).mode = i.mode
  operandBytes : (decodeBytes op b1 b2).operandBytes = i.mode.operandsOf b1 b2
  instr : i.operandBytes = i.mode.operandsOf b1 b2 → decodeBytes op b1 b2 = i

/-- A row that reads `i` whatever the bytes: an F1 instruction, or an Invalid byte. -/
theorem DecodesRow.of_eq {op b1 b2 : Byte} {i : Instr} (hdec : decodeBytes op b1 b2 = i) (hop : i.opcode = some op)
    (hbytes : i.operandBytes = i.mode.operandsOf b1 b2) : DecodesRow op i b1 b2 := by
  subst hdec
  exact ⟨hop, rfl, hbytes, fun _ => rfl⟩

/-- The encoder's opcode of an instruction is the decoder's row of it, one case per shape of operand: no byte or
one, which the decoder takes as they are, or two, which name one word. -/
theorem decodesRow_of_opcode {i : Instr} {op : Byte} (h : i.opcode = some op) (b1 b2 : Byte) :
    DecodesRow op i b1 b2 := by
  cases i with
  | adc o | and o | cmp o | cpx o | cpy o | eor o | lda o | ldx o | ldy o | ora o | sbc o =>
    cases o with
    | imm v => cases h; exact ⟨rfl, rfl, rfl, fun hb => by cases hb; rfl⟩
    | mem m =>
      cases m with
      | zp b | zpx b | zpy b | izx b | izy b => cases h <;> exact ⟨rfl, rfl, rfl, fun hb => by cases hb; rfl⟩
      | abs w | abx w | aby w =>
        cases h <;> exact ⟨rfl, rfl, wordBytes_joinBytes _ _, fun hb => by cases eq_joinBytes_of_wordBytes hb; rfl⟩
  | asl o | lsr o | rol o | ror o =>
    cases o with
    | acc => cases h; exact .of_eq rfl rfl rfl
    | mem m =>
      cases m with
      | zp b | zpx b | zpy b | izx b | izy b => cases h <;> exact ⟨rfl, rfl, rfl, fun hb => by cases hb; rfl⟩
      | abs w | abx w | aby w =>
        cases h <;> exact ⟨rfl, rfl, wordBytes_joinBytes _ _, fun hb => by cases eq_joinBytes_of_wordBytes hb; rfl⟩
  | bit m | dec m | inc m | sta m | stx m | sty m =>
    cases m with
    | zp b | zpx b | zpy b | izx b | izy b => cases h <;> exact ⟨rfl, rfl, rfl, fun hb => by cases hb; rfl⟩
    | abs w | abx w | aby w =>
      cases h <;> exact ⟨rfl, rfl, wordBytes_joinBytes _ _, fun hb => by cases eq_joinBytes_of_wordBytes hb; rfl⟩
  | jmp t =>
    cases t with
    | abs w | ind w =>
      cases h; exact ⟨rfl, rfl, wordBytes_joinBytes _ _, fun hb => by cases eq_joinBytes_of_wordBytes hb; rfl⟩
  | jsr w => cases h; exact ⟨rfl, rfl, wordBytes_joinBytes _ _, fun hb => by cases eq_joinBytes_of_wordBytes hb; rfl⟩
  | bcc off | bcs off | beq off | bmi off | bne off | bpl off | bvc off | bvs off =>
    cases h; exact ⟨rfl, rfl, rfl, fun hb => by cases hb; rfl⟩
  | invalid byte =>
    have hbyte : byte ∈ invalidBytes ∧ byte = op := by simpa [Instr.opcode] using h
    obtain ⟨hmem, rfl⟩ := hbyte
    exact .of_eq (decodeBytes_of_mem_invalidBytes hmem b1 b2) h rfl
  | _ => cases h; exact .of_eq rfl rfl rfl

/-- Every byte is the opcode of what it decodes to (R56, R59); checked over the 256 bytes, with the operand bytes 0. -/
theorem opcode_decodeBytes_zero : ∀ op : Byte, (decodeBytes op 0 0).opcode = some op := by decide

/-- The decoder's row of any byte is the encoder's row of what it decodes to: the operand bytes do not matter. -/
theorem decodesRow_decodeBytes_zero (op b1 b2 : Byte) : DecodesRow op (decodeBytes op 0 0) b1 b2 :=
  decodesRow_of_opcode (opcode_decodeBytes_zero op) b1 b2

theorem opcode_decodeBytes (op b1 b2 : Byte) : (decodeBytes op b1 b2).opcode = some op :=
  (decodesRow_decodeBytes_zero op b1 b2).opcode

theorem operandBytes_decodeBytes (op b1 b2 : Byte) :
    (decodeBytes op b1 b2).operandBytes = (opcodeMode op).operandsOf b1 b2 :=
  (decodesRow_decodeBytes_zero op b1 b2).operandBytes

theorem wellFormed_decodeBytes (op b1 b2 : Byte) : (decodeBytes op b1 b2).wellFormed = true := by
  rw [← Instr.isSome_opcode, opcode_decodeBytes, Option.isSome_some]

/-! ## Lists of bytes -/

/-- The operand bytes the decoder takes are the first of the list, where the list is long enough. -/
theorem Mode.operandsOf_getD {m : Mode} {bs : List Byte} (h : m.len ≤ bs.length + 1) :
    m.operandsOf (bs.getD 0 0) (bs.getD 1 0) = bs.take (m.len - 1) := by
  have htwo : m.len - 1 ≤ 2 := Nat.sub_le_sub_right (mode_len_bounds m).2 1
  have hfits : m.len - 1 ≤ bs.length := Nat.sub_le_of_le_add h
  unfold Mode.operandsOf
  generalize m.len - 1 = k at htwo hfits
  match k, bs, hfits with
  | 0, _, _ => rfl
  | 1, _ :: _, _ => rfl
  | 2, _ :: _ :: _, _ => rfl

/-- What the decoder answers on a list that holds the whole instruction (R50). -/
theorem decode_cons {op : Byte} {bs : List Byte} (h : opcodeLen op ≤ bs.length + 1) :
    decode (op :: bs) = .instr (decodeBytes op (bs.getD 0 0) (bs.getD 1 0)) (bs.drop (opcodeLen op - 1)) :=
  if_neg (Nat.not_lt.mpr h)

/-- A list that decodes to an instruction holds the whole of it. -/
theorem decode_eq_instr {bs rest : List Byte} {i : Instr} (h : decode bs = .instr i rest) :
    ∃ op tail, bs = op :: tail ∧ opcodeLen op ≤ tail.length + 1 ∧
      i = decodeBytes op (tail.getD 0 0) (tail.getD 1 0) ∧ rest = tail.drop (opcodeLen op - 1) := by
  cases bs with
  | nil => cases h
  | cons op tail =>
    by_cases hlen : opcodeLen op ≤ tail.length + 1
    · obtain ⟨rfl, rfl⟩ := Decoded.instr.inj ((decode_cons hlen).symm.trans h)
      exact ⟨op, tail, rfl, hlen, rfl, rfl⟩
    · rw [decode, if_pos (Nat.not_le.mp hlen)] at h
      cases h

/-- A list that begins with the bytes of an instruction decodes to it, and the rest is left over (R50). -/
theorem decode_append_of_opcode {i : Instr} {op : Byte} (hop : i.opcode = some op) (rest : List Byte) :
    decode (op :: (i.operandBytes ++ rest)) = .instr i rest := by
  have hmode : opcodeMode op = i.mode := (decodesRow_of_opcode hop 0 0).mode
  have hlen : i.mode.len - 1 = i.operandBytes.length := Nat.sub_eq_of_eq_add i.operandBytes_length.symm
  have hfits : i.mode.len ≤ (i.operandBytes ++ rest).length + 1 := by
    rw [List.length_append]; omega
  have htaken := Mode.operandsOf_getD hfits
  rw [hlen, List.take_left] at htaken
  rw [decode_cons (by rwa [opcodeLen, hmode]), (decodesRow_of_opcode hop _ _).instr htaken.symm, opcodeLen, hmode, hlen,
    List.drop_left]

/-- Settles O37: an instruction that exists has an opcode, and the list that begins with its bytes decodes to it. -/
theorem decodeOfEncodeIsTheInstruction : Obligations.DecodeOfEncodeIsTheInstruction := by
  intro i hi
  obtain ⟨op, hop⟩ : ∃ op, i.opcode = some op := Option.isSome_iff_exists.mp (i.isSome_opcode.trans hi)
  exact ⟨_, encode_of_opcode hop, decode_append_of_opcode hop⟩

/-- Settles O38: what is read has the opcode byte as its opcode, and its operand bytes are the ones taken. -/
theorem encodeOfDecodeIsTheBytes : Obligations.EncodeOfDecodeIsTheBytes := by
  intro bs rest i h
  obtain ⟨op, tail, rfl, hlen, rfl, rfl⟩ := decode_eq_instr h
  have hbytes : (decodeBytes op (tail.getD 0 0) (tail.getD 1 0)).operandBytes = tail.take (opcodeLen op - 1) :=
    (operandBytes_decodeBytes op _ _).trans (Mode.operandsOf_getD hlen)
  refine ⟨wellFormed_decodeBytes op _ _, _, encode_of_opcode (opcode_decodeBytes op _ _), ?_,
    Instr.operandBytes_length _⟩
  rw [hbytes, List.cons_append, List.take_append_drop]

/-! ## Mnemonic and mode -/

/-- An operand text of the mode, with every digit 0. -/
def Mode.zeroOperand : Mode → TextOperand
  | .implicit => .implicit
  | .immediate => .imm 0
  | .absolute => .mem (.abs 0)
  | .zeroPage => .mem (.zp 0)
  | .zeroPageIndexedX => .mem (.zpx 0)
  | .zeroPageIndexedY => .mem (.zpy 0)
  | .preIndexedIndirect => .mem (.izx 0)
  | .postIndexedIndirect => .mem (.izy 0)
  | .absoluteIndexedX => .mem (.abx 0)
  | .absoluteIndexedY => .mem (.aby 0)
  | .indirect => .ind 0
  | .relative => .rel 0
  | .invalid => .implicit

/-- Mnemonic and mode name the instruction of an assigned byte, as the assembler reads them (R56, R62). -/
theorem pairInstr_decodeBytes_zero : ∀ op : Byte, op ∉ invalidBytes →
    pairInstr (decodeBytes op 0 0).mnemonicText (opcodeMode op).zeroOperand = some (decodeBytes op 0 0) := by
  decide

/-- Settles O39: mnemonic and mode name the instruction, and the instruction its opcode. -/
theorem opcodePairsAreDistinct : Obligations.OpcodePairsAreDistinct := by
  intro op op' hop hop' htext hmode
  have hinstr : decodeBytes op 0 0 = decodeBytes op' 0 0 := by
    rw [← Option.some_inj, ← pairInstr_decodeBytes_zero op hop, htext, hmode, pairInstr_decodeBytes_zero op' hop']
  rw [← Option.some_inj, ← opcode_decodeBytes_zero op, hinstr, opcode_decodeBytes_zero op']

/-- Settles O41: the decoder evaluated on each of the words. -/
theorem specWordsDecode : Obligations.SpecWordsDecode := by
  unfold Obligations.SpecWordsDecode
  decide

end Sys2Proof
end

section
/-! PROOFS. The branch target in exact arithmetic (R55, R87): the offset is widened as a signed number, so adding it
modulo 65536 goes backwards from 128 on. -/

namespace Sys2Proof.Machine

/-- The widened byte: 128 and up stand for the number less 256, modulo 65536 (R55). -/
theorem sext16_toNat (b : Byte) : (sext16 b).toNat = if b.toNat < 128 then b.toNat else b.toNat + 65280 := by
  have hb := b.isLt
  simp only [sext16, BitVec.toNat_signExtend, BitVec.msb_eq_decide, BitVec.toNat_setWidth, decide_eq_true_eq]
  split <;> split <;> omega

/-- Settles O32: the sum is exact but for the modulus, and the widened byte is the signed offset modulo 65536. -/
theorem relativeTargetFormula : Obligations.RelativeTargetFormula := by
  intro off s
  have hexact : (branchTarget off s).toNat = (s.pc.toNat + 2 + (sext16 off).toNat) % 65536 := by
    simp [branchTarget, BitVec.toNat_add]
  refine ⟨?_, ?_, ?_, ?_, ?_⟩
  · rw [hexact, sext16_toNat]
    split <;> omega
  · show s.pc + 2 + 0 = s.pc + 2
    exact BitVec.add_zero _
  · show s.pc + 2 + 0xFFFE = s.pc
    bv_omega
  · show s.pc + 2 + 0x007F = s.pc + 129
    bv_omega
  · show s.pc + 2 + 0xFF80 = s.pc - 126
    bv_omega

end Sys2Proof.Machine
end

section
/-! PROOFS. The effective addresses in exact arithmetic (R78 to R86): a widened byte keeps its number, and a word read is
the number of its two bytes. A pointer in the zero page needs no modulus: its second byte is at 0x0100 at most. -/

namespace Sys2Proof.Machine

@[simp] theorem zext16_toNat (b : Byte) : (zext16 b).toNat = b.toNat :=
  BitVec.toNat_setWidth_of_le (by decide)

/-- The word at an address, as a number (R35). -/
theorem Memory.readWord_toNat (m : Memory) (addr : Word) :
    (m.readWord addr).toNat = (m.peek addr.toNat).toNat + 256 * (m.peek ((addr.toNat + 1) % 65536)).toNat := by
  have hnext : (addr + 1).toNat = (addr.toNat + 1) % 65536 := BitVec.toNat_add addr 1
  rw [Memory.readWord, joinBytes_toNat, Memory.read, Memory.read, hnext]

/-- A pointer in the zero page: at 0xFF its high byte comes from 0x0100 (R83, R84). -/
theorem State.memReadWord_zext16_toNat (s : State) (b : Byte) :
    (s.memReadWord (zext16 b)).toNat = (s.mem.peek b.toNat).toNat + 256 * (s.mem.peek (b.toNat + 1)).toNat := by
  have hb := b.isLt
  have hnext : (b.toNat + 1) % 65536 = b.toNat + 1 := Nat.mod_eq_of_lt (by omega)
  rw [State.memReadWord, Memory.readWord_toNat, zext16_toNat, hnext]

/-- An index added to a word address wraps modulo 65536 (R81, R82, R84). -/
theorem add_zext16_toNat (w : Word) (b : Byte) : (w + zext16 b).toNat = (w.toNat + b.toNat) % 65536 := by
  rw [BitVec.toNat_add, zext16_toNat]

/-- An index added in the zero page wraps modulo 256 (R79, R80, R83). -/
theorem zext16_add_toNat (b c : Byte) : (zext16 (b + c)).toNat = (b.toNat + c.toNat) % 256 := by
  rw [zext16_toNat, BitVec.toNat_add]

/-- Settles O31: each address is a sum in the zero page, a sum of words, or a pointer word. -/
theorem effectiveAddressFormulas : Obligations.EffectiveAddressFormulas := by
  intro s b w
  have hizx : (effectiveAddr (.izx b) s).toNat = (s.mem.peek ((b.toNat + s.x.toNat) % 256)).toNat +
      256 * (s.mem.peek ((b.toNat + s.x.toNat) % 256 + 1)).toNat := by
    rw [← BitVec.toNat_add]
    exact s.memReadWord_zext16_toNat (b + s.x)
  have hizy : (effectiveAddr (.izy b) s).toNat = ((s.mem.peek b.toNat).toNat +
      256 * (s.mem.peek (b.toNat + 1)).toNat + s.y.toNat) % 65536 := by
    rw [← s.memReadWord_zext16_toNat]
    exact add_zext16_toNat _ s.y
  exact ⟨zext16_toNat b, zext16_add_toNat b s.x, zext16_add_toNat b s.y, rfl, add_zext16_toNat w s.x,
    add_zext16_toNat w s.y, hizx, hizy, rfl, s.mem.readWord_toNat w⟩

end Sys2Proof.Machine
end

section
/-! PROOFS. The fetched instruction (R70, R77): it is what the bytes at PC decode to, and its operand bytes are the ones
after the opcode. Both are read off the decoder's laws. -/

namespace Sys2Proof.Machine

/-- The operand bytes of the fetched instruction are those after its opcode, as many as its mode takes (R52 to R54). -/
theorem operandBytes_fetchInstr (s : State) : (fetchInstr s).operandBytes =
    (fetchInstr s).mode.operandsOf (s.memRead (s.pc + 1)) (s.memRead (s.pc + 2)) :=
  (decodesRow_of_opcode (opcode_decodeBytes _ _ _) _ _).operandBytes

/-- Settles O36: an immediate value is the one operand byte of its instruction. -/
theorem immediateIsTheOperandByte : Obligations.ImmediateIsTheOperandByte := by
  intro s v f hf hfetch
  have himm : (f (.imm v)).mode = .immediate ∧ (f (.imm v)).operandBytes = [v] := by
    fin_cases hf <;> exact ⟨rfl, rfl⟩
  obtain ⟨hmode, hbytes⟩ := himm
  have hoperand : [v] = [s.memRead (s.pc + 1)] := by
    rw [← hbytes, ← hfetch, operandBytes_fetchInstr, hfetch, hmode]
    rfl
  exact List.head_eq_of_cons_eq hoperand

/-- Settles O43: what the three bytes at PC decode to is the fetched instruction, and a step is its `exec`. -/
theorem stepRunsTheDecodedInstruction : Obligations.StepRunsTheDecodedInstruction := by
  intro s i rest hdec
  obtain ⟨op, tail, hbytes, -, hi, -⟩ := decode_eq_instr hdec
  obtain ⟨rfl, rfl⟩ := List.cons.inj hbytes
  have hfetch : i = fetchInstr s := hi
  rw [hfetch, step]

end Sys2Proof.Machine
end

section
/-! PROOFS. A push (R91): one store at the slot SP names, then SP goes down by one modulo 256; the rest is as it was. -/

namespace Sys2Proof.Machine

/-- A read after a push. -/
theorem State.memRead_push (s : State) (v : Byte) (b : Word) :
    (s.push v).memRead b = if stackAddr s.sp = b then v else s.memRead b :=
  s.memRead_memWrite (stackAddr s.sp) b v

@[simp] theorem State.memRead_push_same (s : State) (v : Byte) : (s.push v).memRead (stackAddr s.sp) = v := by
  rw [State.memRead_push, if_pos rfl]

theorem State.memKept_push (s : State) (v : Byte) : s.memKept (s.push v) [stackAddr s.sp] := by
  intro b hb
  rw [State.memRead_push, if_neg (List.ne_of_not_mem_cons hb).symm]

/-- Of the registers a push changes SP alone. -/
theorem State.regsKept_push (s : State) (v : Byte) : s.regsKept (s.push v) [.sp] := by
  intro r hr
  cases r with
  | a | x | y => rfl
  | sp => exact absurd (List.mem_singleton_self Reg.sp) hr

/-- SP goes down by one modulo 256. -/
theorem State.push_sp_toNat (s : State) (v : Byte) : (s.push v).sp.toNat = (s.sp.toNat + 255) % 256 := by
  rw [State.push_sp]
  bv_omega

/-- Settles O29: the push said field by field; the slot of SP = 0 is 0x0100, and 0 goes down to 0xFF. -/
theorem pushWritesInTheStackPage : Obligations.PushWritesInTheStackPage := by
  refine ⟨stackAddr_toNat, fun s v => ?_, fun s v hsp => ?_⟩
  · exact ⟨s.memRead_push_same v, s.memKept_push v, s.push_sp_toNat v, s.regsKept_push v, fun _ _ => rfl⟩
  · have hslot : stackAddr s.sp = 0x0100 := by rw [hsp]; rfl
    have hread : (s.push v).memRead 0x0100 = v := by rw [← hslot, State.memRead_push_same]
    have hdown : (s.push v).sp = 0xFF := by rw [State.push_sp, hsp]; rfl
    exact ⟨hread, hdown⟩

end Sys2Proof.Machine
end

section
/-! PROOFS. Load, store and transfer (R100 to R112). A load, and every transfer but `txs`, puts one byte into one
register and then does `SetNZ` with it: what that leaves is said once, for any of the four registers. The three stores
are one write at the effective address. -/

namespace Sys2Proof.Machine

/-! ## Writing a register and setting N and Z -/

/-- `x[r] <- v`, for any of the four registers. -/
def State.setReg (s : State) (r : Reg) (v : Byte) : State :=
  match r with
  | .a => s.setA v
  | .x => s.setX v
  | .y => s.setY v
  | .sp => s.setSP v

/-- A register write, seen through any register. -/
theorem State.reg_setReg (s : State) (r q : Reg) (v : Byte) :
    (s.setReg r v).reg q = if r = q then v else s.reg q := by
  cases r <;> cases q <;> rfl

@[simp] theorem State.reg_setReg_same (s : State) (r : Reg) (v : Byte) : (s.setReg r v).reg r = v := by
  rw [State.reg_setReg, if_pos rfl]

@[simp] theorem State.setReg_p (s : State) (r : Reg) (v : Byte) : (s.setReg r v).p = s.p := by
  cases r <;> rfl

@[simp] theorem State.setReg_mem (s : State) (r : Reg) (v : Byte) : (s.setReg r v).mem = s.mem := by
  cases r <;> rfl

@[simp] theorem State.setReg_pc (s : State) (r : Reg) (v : Byte) : (s.setReg r v).pc = s.pc := by
  cases r <;> rfl

theorem State.regsKept_setReg (s : State) (r : Reg) (v : Byte) : s.regsKept (s.setReg r v) [r] := by
  intro q hq
  rw [State.reg_setReg, if_neg (List.ne_of_not_mem_cons hq).symm]

theorem State.flagsKept_setReg (s : State) (r : Reg) (v : Byte) : s.flagsKept (s.setReg r v) [] :=
  fun f _ => State.flag_eq_of_p s _ (s.setReg_p r v) f

theorem State.memKept_setReg (s : State) (r : Reg) (v : Byte) : s.memKept (s.setReg r v) [] :=
  fun b _ => State.memRead_eq_of_mem s _ (s.setReg_mem r v) b

/-- The end of a step that sets no target moves PC by the length from where it was (R74). -/
theorem State.wentOn_finish {s u : State} (hpc : u.pc = s.pc) (len : Nat) : s.wentOn (u.finish len none) len :=
  congrArg (· + BitVec.ofNat 16 len) hpc

/-- `SetNZ`, seen through any flag (R90). -/
theorem State.flag_setNZ (s : State) (v : Byte) (f : Flag) :
    (s.setNZ v).flag f = if f = .n then v.msb else if f = .z then v == 0 else s.flag f :=
  readFlag_writeNZ s.p v f

theorem State.showsNZ_setNZ (s : State) (v : Byte) : (s.setNZ v).showsNZ v := by
  refine ⟨?_, s.flag_setNZ v .z⟩
  rw [State.flag_setNZ, if_pos rfl, BitVec.msb_eq_getLsbD_last]

theorem State.flagsKept_setNZ (s : State) (v : Byte) : s.flagsKept (s.setNZ v) [.n, .z] := by
  intro f hf
  obtain ⟨hn, hz⟩ : f ≠ .n ∧ f ≠ .z := by simpa using hf
  rw [State.flag_setNZ, if_neg hn, if_neg hz]

/-- From `s` to `t` register `r` took the byte `v`, N and Z follow it, PC advanced by `len`, nothing else changed. -/
def State.tookByte (s t : State) (r : Reg) (v : Byte) (len : Nat) : Prop :=
  t.reg r = v ∧ t.showsNZ v ∧ s.flagsKept t [.n, .z] ∧ s.regsKept t [r] ∧ s.memKept t [] ∧ s.wentOn t len

/-- A register write with its `SetNZ`, at the end of a step. -/
theorem State.tookByte_setReg (s : State) (r : Reg) (v : Byte) (len : Nat) :
    s.tookByte (((s.setReg r v).setNZ v).finish len none) r v len := by
  have hflags : s.flagsKept ((s.setReg r v).setNZ v) [.n, .z] := fun f hf =>
    ((s.setReg r v).flagsKept_setNZ v f hf).trans (s.flagsKept_setReg r v f List.not_mem_nil)
  exact ⟨s.reg_setReg_same r v, (s.setReg r v).showsNZ_setNZ v, hflags, s.regsKept_setReg r v, s.memKept_setReg r v,
    State.wentOn_finish (s.setReg_pc r v) len⟩

/-! ## Loads -/

/-- A load of any register: what it takes is its operand byte (R101, R102, R103). -/
theorem load_tookByte (r : Reg) (o : ReadOperand) (s : State) :
    ∃ t, withOperand o s (fun v s => (s.setReg r v).setNZ v) = .next t ∧
      s.tookByte t r (readValue o s) o.mode.len :=
  ⟨_, rfl, s.tookByte_setReg r (readValue o s) o.mode.len⟩

/-- Settles O1: the load of A, of X and of Y, and the decoder evaluated on each opcode. -/
theorem loadsSetRegisterAndNZ : Obligations.LoadsSetRegisterAndNZ := by
  refine ⟨load_tookByte .a, load_tookByte .x, load_tookByte .y, fun b1 b2 => ?_⟩
  and_intros <;> rfl

/-! ## Stores -/

/-- A store of any byte: one write at the effective address, and PC goes on (R104, R105, R106). -/
theorem storeByte_effect (m : MemOperand) (v : Byte) (s : State) :
    ∃ t, storeByte m v s = .next t ∧ t.memRead (effectiveAddr m s) = v ∧ s.memKept t [effectiveAddr m s] ∧
      s.regsKept t [] ∧ s.flagsKept t [] ∧ s.wentOn t m.mode.len := by
  obtain ⟨t, ht⟩ : ∃ t, storeByte m v s = .next t := ⟨_, rfl⟩
  have hstored : t.memRead (effectiveAddr m s) = v := (storeByte_memRead ht _).trans (if_pos rfl)
  have hkept : s.memKept t [effectiveAddr m s] := fun b hb =>
    (storeByte_memRead ht b).trans (if_neg (List.ne_of_not_mem_cons hb).symm)
  obtain rfl := storeByte_next m v s t ht
  exact ⟨_, ht, hstored, hkept, fun r _ => by cases r <;> rfl, fun _ _ => rfl, State.wentOn_finish rfl _⟩

/-- The port sees the opcode read, the resolver's reads and the one write (R45, R104). -/
theorem stepTransactions_of_sta {m : MemOperand} {s : State} (hfetch : fetchInstr s = .sta m) :
    stepTransactions s = readsOf s [s.pc] ++ resolverReads m s ++ [.write (effectiveAddr m s) s.a] := by
  rw [stepTransactions, hfetch, List.append_assoc]
  rfl

/-- Settles O2: the store of A, of X and of Y, the decoder evaluated on each opcode, and the port's list for `sta`. -/
theorem storesWriteOneByteAndNoFlag : Obligations.StoresWriteOneByteAndNoFlag := by
  refine ⟨fun m s => storeByte_effect m s.a s, fun m s => storeByte_effect m s.x s,
    fun m s => storeByte_effect m s.y s, fun b1 b2 => ?_, fun _ _ => stepTransactions_of_sta⟩
  and_intros <;> rfl

/-! ## Transfers -/

/-- A transfer of any byte to any register, with N and Z from it (R107 to R111). -/
theorem transfer_tookByte (r : Reg) (v : Byte) (s : State) :
    ∃ t, implied ((s.setReg r v).setNZ v) = .next t ∧ s.tookByte t r v 1 :=
  ⟨_, rfl, s.tookByte_setReg r v 1⟩

/-- `txs` is the register write alone: it does no `SetNZ` (R112). -/
theorem txs_effect (s : State) :
    ∃ t, exec .txs s = .next t ∧ t.sp = s.x ∧ s.flagsKept t [] ∧ s.regsKept t [.sp] ∧ s.memKept t [] ∧
      s.wentOn t 1 :=
  ⟨_, rfl, rfl, s.flagsKept_setReg .sp s.x, s.regsKept_setReg .sp s.x, s.memKept_setReg .sp s.x, rfl⟩

/-- Settles O3: five transfers that set N and Z, then `txs`, and the decoder evaluated on each opcode. -/
theorem transfersCopyOneRegister : Obligations.TransfersCopyOneRegister := by
  refine ⟨fun s => transfer_tookByte .x s.a s, fun s => transfer_tookByte .y s.a s,
    fun s => transfer_tookByte .a s.x s, fun s => transfer_tookByte .a s.y s, fun s => transfer_tookByte .x s.sp s,
    txs_effect, fun b1 b2 => ?_⟩
  and_intros <;> rfl

end Sys2Proof.Machine
end

section
/-! PROOFS. Arithmetic, logic, compare and bit test (R120 to R131). The adder is related to exact arithmetic first, the
subtractor being the adder on the complement; then what each shape of step leaves is said once. That nothing else writes V
is read off R25's table, which every instruction keeps to. -/

namespace Sys2Proof.Machine

/-! ## The adder and the subtractor in exact arithmetic -/

/-- The wrapped sum (R120). -/
theorem addWithCarry_value_toNat (a m : Byte) (c : Bool) :
    (addWithCarry a m c).value.toNat = (a.toNat + m.toNat + c.toNat) % 256 :=
  BitVec.toNat_ofNat _ 8

/-- A byte read as a signed number: 128 and up stand for the number less 256 (R121). -/
theorem byte_toInt_eq (b : Byte) : b.toInt = if b.toNat < 128 then (b.toNat : Int) else b.toNat - 256 := by
  rw [BitVec.toInt_eq_toNat_cond]
  split <;> split <;> omega

/-- The overflow formula on sign bits: both operands have the same one and the result the other (R121). -/
theorem addWithCarry_overflow_eq (a m : Byte) (c : Bool) :
    (addWithCarry a m c).overflow =
      ((a.msb ^^ (addWithCarry a m c).value.msb) && (m.msb ^^ (addWithCarry a m c).value.msb)) := by
  simp [addWithCarry]

/-- V says that the true signed sum does not fit into a byte (R121). -/
theorem addWithCarry_overflow_iff (a m : Byte) (c : Bool) :
    (addWithCarry a m c).overflow = true ↔
      a.toInt + m.toInt + (c.toNat : Int) < -128 ∨ 127 < a.toInt + m.toInt + (c.toNat : Int) := by
  have ha := a.isLt
  have hm := m.isLt
  have hc := c.toNat_le
  have hsigns : (addWithCarry a m c).overflow = true ↔
      ¬(128 ≤ a.toNat ↔ 128 ≤ (a.toNat + m.toNat + c.toNat) % 256) ∧
      ¬(128 ≤ m.toNat ↔ 128 ≤ (a.toNat + m.toNat + c.toNat) % 256) := by
    simp [addWithCarry_overflow_eq, BitVec.msb_eq_decide, addWithCarry_value_toNat]
  rw [hsigns, byte_toInt_eq, byte_toInt_eq]
  split <;> split <;> omega

/-- The complement as an unsigned number (R124). -/
theorem complement_toNat (m : Byte) : (m ^^^ 0xFF).toNat = 255 - m.toNat := by
  have hnot : m ^^^ 0xFF = ~~~m := BitVec.xor_allOnes
  rw [hnot, BitVec.toNat_not]

/-- The complement as a signed number (R124). -/
theorem complement_toInt (m : Byte) : (m ^^^ 0xFF).toInt = -1 - m.toInt := by
  have hm := m.isLt
  rw [byte_toInt_eq, byte_toInt_eq, complement_toNat]
  split <;> split <;> omega

/-- The wrapped difference less the borrow (R124). -/
theorem subWithCarry_value_toNat (a m : Byte) (c : Bool) :
    ((subWithCarry a m c).value.toNat : Int) = ((a.toNat : Int) - m.toNat - (1 - (c.toNat : Int))) % 256 := by
  have hm := m.isLt
  rw [subWithCarry, addWithCarry_value_toNat, complement_toNat]
  omega

/-- The carry out says that there was no borrow (R124). -/
theorem subWithCarry_carry (a m : Byte) (c : Bool) :
    (subWithCarry a m c).carry = decide (m.toNat + (1 - c.toNat) ≤ a.toNat) := by
  have hm := m.isLt
  have hc := c.toNat_le
  simp only [subWithCarry, addWithCarry, complement_toNat, decide_eq_decide]
  omega

/-- V says that the true signed difference does not fit into a byte (R124). -/
theorem subWithCarry_overflow_iff (a m : Byte) (c : Bool) :
    (subWithCarry a m c).overflow = true ↔
      a.toInt - m.toInt - (1 - (c.toNat : Int)) < -128 ∨ 127 < a.toInt - m.toInt - (1 - (c.toNat : Int)) := by
  have hsum : a.toInt + (-1 - m.toInt) + (c.toNat : Int) = a.toInt - m.toInt - (1 - (c.toNat : Int)) := by ring
  rw [subWithCarry, addWithCarry_overflow_iff, complement_toInt, hsum]

/-! ## Which flags each status word keeps -/

/-- Every bit of the status word but the named ones is in `q` as in `p`: `State.flagsKept`, said of the words alone. -/
def keepsFlags (but : List Flag) (p q : Byte) : Prop := ∀ f : Flag, f ∉ but → readFlag q f = readFlag p f

theorem State.flagsKept_iff_keepsFlags (s t : State) (but : List Flag) :
    s.flagsKept t but ↔ keepsFlags but s.p t.p := Iff.rfl

theorem keepsFlags.refl (but : List Flag) (p : Byte) : keepsFlags but p p := fun _ _ => rfl

/-- One more flag write keeps the flags outside a list that names it. -/
theorem keepsFlags.writeFlag {but : List Flag} {p q : Byte} (h : keepsFlags but p q) (f : Flag) (on : Bool)
    (hf : f ∈ but) : keepsFlags but p (writeFlag q f on) := by
  intro g hg
  have hne : f ≠ g := fun heq => hg (heq ▸ hf)
  rw [readFlag_writeFlag, if_neg hne, h g hg]

/-- `SetNZ` writes N and Z (R90). -/
theorem keepsFlags_writeNZ (p v : Byte) : keepsFlags [.n, .z] p (writeNZ p v) :=
  ((keepsFlags.refl _ p).writeFlag .n _ (by decide)).writeFlag .z _ (by decide)

/-- `adc` and `sbc` write C, V, N and Z (R123, R124). -/
theorem keepsFlags_writeSum (p : Byte) (r : Sum) : keepsFlags [.n, .v, .z, .c] p (writeSum p r) :=
  ((((keepsFlags.refl _ p).writeFlag .c _ (by decide)).writeFlag .v _ (by decide)).writeFlag .n _
    (by decide)).writeFlag .z _ (by decide)

/-- A compare writes C, Z and N (R128). -/
theorem keepsFlags_writeCompare (p r m : Byte) : keepsFlags [.n, .z, .c] p (writeCompare p r m) :=
  (((keepsFlags.refl _ p).writeFlag .c _ (by decide)).writeFlag .z _ (by decide)).writeFlag .n _ (by decide)

/-- `bit` writes Z, N and V (R131). -/
theorem keepsFlags_writeBitTest (p a m : Byte) : keepsFlags [.n, .v, .z] p (writeBitTest p a m) :=
  (((keepsFlags.refl _ p).writeFlag .z _ (by decide)).writeFlag .n _ (by decide)).writeFlag .v _ (by decide)

/-- A shift writes C, N and Z (R141 to R144). -/
theorem keepsFlags_writeShifted (p : Byte) (r : Shifted) : keepsFlags [.n, .z, .c] p (writeShifted p r) :=
  (((keepsFlags.refl _ p).writeFlag .c _ (by decide)).writeFlag .n _ (by decide)).writeFlag .z _ (by decide)

/-- A step that writes the status word alone: no register and no byte of memory changes. -/
theorem State.frame_setP (s : State) (p : Byte) (len : Nat) :
    s.regsKept ((s.setP p).finish len none) [] ∧ s.memKept ((s.setP p).finish len none) [] ∧
      s.wentOn ((s.setP p).finish len none) len :=
  ⟨fun r _ => by cases r <;> rfl, fun _ _ => rfl, State.wentOn_finish rfl len⟩

/-! ## Add and subtract -/

/-- From `s` to `t` A took the sum `r`, its carry went to C and its overflow to V, N and Z follow A, PC advanced by
`len`, nothing else changed. -/
def State.tookSum (s t : State) (r : Sum) (len : Nat) : Prop :=
  t.a = r.value ∧ t.flag .c = r.carry ∧ t.flag .v = r.overflow ∧ t.showsNZ t.a ∧ s.flagsKept t [.n, .v, .z, .c] ∧
    s.regsKept t [.a] ∧ s.memKept t [] ∧ s.wentOn t len

/-- A written with its status word, at the end of a step. -/
theorem State.tookSum_finish (s : State) (r : Sum) (len : Nat) :
    s.tookSum (((s.setA r.value).setP (writeSum s.p r)).finish len none) r len := by
  have hn : readFlag (writeSum s.p r) .n = r.value.getLsbD 7 :=
    (readFlag_writeSum s.p r .n).trans (BitVec.msb_eq_getLsbD_last r.value)
  exact ⟨rfl, readFlag_writeSum s.p r .c, readFlag_writeSum s.p r .v, ⟨hn, readFlag_writeSum s.p r .z⟩,
    keepsFlags_writeSum s.p r, s.regsKept_setReg .a r.value, s.memKept_setReg .a r.value,
    State.wentOn_finish rfl len⟩

theorem adc_tookSum (o : ReadOperand) (s : State) :
    ∃ t, exec (.adc o) s = .next t ∧ s.tookSum t (addWithCarry s.a (readValue o s) (s.flag .c)) o.mode.len :=
  ⟨_, rfl, s.tookSum_finish _ _⟩

theorem sbc_tookSum (o : ReadOperand) (s : State) :
    ∃ t, exec (.sbc o) s = .next t ∧ s.tookSum t (subWithCarry s.a (readValue o s) (s.flag .c)) o.mode.len :=
  ⟨_, rfl, s.tookSum_finish _ _⟩

/-- Settles O4: the adder's laws for what `adc` leaves, and the decoder evaluated on each opcode. -/
theorem adcAddsWithCarryAndOverflow : Obligations.AdcAddsWithCarryAndOverflow := by
  refine ⟨fun o s => ?_, fun b1 b2 => by and_intros <;> rfl⟩
  obtain ⟨t, hexec, ha, hc, hv, hrest⟩ := adc_tookSum o s
  refine ⟨t, hexec, ?_, hc, ?_, hrest⟩
  · rw [ha, addWithCarry_value_toNat]
  · rw [hv, addWithCarry_overflow_iff]

/-- Settles O5: the subtractor's laws for what `sbc` leaves, and the decoder evaluated on each opcode. -/
theorem sbcSubtractsWithBorrowAndOverflow : Obligations.SbcSubtractsWithBorrowAndOverflow := by
  refine ⟨fun o s => ?_, fun b1 b2 => by and_intros <;> rfl⟩
  obtain ⟨t, hexec, ha, hc, hv, hrest⟩ := sbc_tookSum o s
  refine ⟨t, hexec, ?_, ?_, ?_, hrest⟩
  · rw [ha, subWithCarry_value_toNat]
  · rw [hc, subWithCarry_carry]
  · rw [hv, subWithCarry_overflow_iff]

/-! ## Logic -/

/-- A logic instruction whose operation works bit by bit: so does what A takes (R125, R126, R127). -/
theorem logicStep_effect {op : Byte → Byte → Byte} {bitOp : Bool → Bool → Bool}
    (hop : ∀ a m k, (op a m).getLsbD k = bitOp (a.getLsbD k) (m.getLsbD k)) (o : ReadOperand) (s : State) :
    ∃ t, logicStep o s op = .next t ∧ (∀ k, t.a.getLsbD k = bitOp (s.a.getLsbD k) ((readValue o s).getLsbD k)) ∧
      t.showsNZ t.a ∧ s.flagsKept t [.n, .z] ∧ s.regsKept t [.a] ∧ s.memKept t [] ∧ s.wentOn t o.mode.len := by
  obtain ⟨-, hnz, hkept⟩ := s.tookByte_setReg .a (op s.a (readValue o s)) o.mode.len
  exact ⟨_, rfl, hop s.a (readValue o s), hnz, hkept⟩

/-- Settles O6: the three operations bit by bit, and the decoder evaluated on each opcode. -/
theorem logicInstructionsCombineBits : Obligations.LogicInstructionsCombineBits := by
  refine ⟨logicStep_effect fun _ _ _ => BitVec.getLsbD_and, logicStep_effect fun _ _ _ => BitVec.getLsbD_or,
    logicStep_effect fun _ _ _ => BitVec.getLsbD_xor, fun b1 b2 => ?_⟩
  and_intros <;> rfl

/-! ## Compares -/

/-- Bit 7 of the wrapped difference (R128). -/
theorem msb_sub_eq_decide (r m : Byte) : (r - m).msb = decide (128 ≤ (256 + r.toNat - m.toNat) % 256) := by
  have hm := m.isLt
  rw [BitVec.msb_eq_decide, BitVec.toNat_sub, decide_eq_decide]
  omega

/-- A compare of any register value `r`: only N, Z and C are written (R128, R129, R130). -/
theorem compareStep_effect (r : State → Byte) (o : ReadOperand) (s : State) :
    ∃ t, compareStep o (r s) s = .next t ∧
      t.flag .c = decide ((readValue o s).toNat ≤ (r s).toNat) ∧ t.flag .z = decide (r s = readValue o s) ∧
      t.flag .n = decide (128 ≤ (256 + (r s).toNat - (readValue o s).toNat) % 256) ∧
      s.flagsKept t [.n, .z, .c] ∧ s.regsKept t [] ∧ s.memKept t [] ∧ s.wentOn t o.mode.len := by
  have hflag := readFlag_writeCompare s.p (r s) (readValue o s)
  exact ⟨_, rfl, hflag .c, hflag .z, (hflag .n).trans (msb_sub_eq_decide _ _), keepsFlags_writeCompare s.p _ _,
    s.frame_setP _ _⟩

/-- Settles O7: the compare of A, of X and of Y, and the decoder evaluated on each opcode. -/
theorem comparesSetFlagsOnly : Obligations.ComparesSetFlagsOnly := by
  refine ⟨compareStep_effect State.a, compareStep_effect State.x, compareStep_effect State.y, fun b1 b2 => ?_⟩
  and_intros <;> rfl

/-! ## Bit test and the writers of V -/

/-- The bit test: N, V and Z alone are written (R131). -/
theorem bit_effect (m : MemOperand) (s : State) :
    ∃ t, exec (.bit m) s = .next t ∧ t.flag .z = decide (s.a &&& s.memRead (effectiveAddr m s) = 0) ∧
      t.flag .n = (s.memRead (effectiveAddr m s)).getLsbD 7 ∧ t.flag .v = (s.memRead (effectiveAddr m s)).getLsbD 6 ∧
      s.flagsKept t [.n, .v, .z] ∧ s.regsKept t [] ∧ s.memKept t [] ∧ s.wentOn t m.mode.len := by
  have hflag := readFlag_writeBitTest s.p s.a (s.memRead (effectiveAddr m s))
  exact ⟨_, rfl, hflag .z, hflag .n, hflag .v, keepsFlags_writeBitTest s.p _ _, s.frame_setP _ _⟩

/-- An instruction writes the flags of R25's table at most, one case per status word it leaves. -/
theorem exec_flagsKept {i : Instr} {s t : State} (h : exec i s = .next t) : s.flagsKept t (flagsWritten i) := by
  rw [State.flagsKept_iff_keepsFlags]
  cases i with
  | lda _ | ldx _ | ldy _ | tax | tay | txa | tya | tsx | pla | and _ | ora _ | eor _ | inc _ | dec _ | inx | iny | dex
  | dey =>
    cases h
    exact keepsFlags_writeNZ s.p _
  | adc _ | sbc _ =>
    cases h
    exact keepsFlags_writeSum s.p _
  | cmp _ | cpx _ | cpy _ =>
    cases h
    exact keepsFlags_writeCompare s.p _ _
  | bit _ =>
    cases h
    exact keepsFlags_writeBitTest s.p _ _
  | asl o | rol o | lsr o | ror o =>
    cases h
    exact keepsFlags_writeShifted s.p _
  | clc | sec | cli | sei | cld | sed | clv =>
    cases h
    exact (keepsFlags.refl _ s.p).writeFlag _ _ (by decide)
  | brk =>
    cases h
    exact ((keepsFlags.refl _ s.p).writeFlag .b true (by decide)).writeFlag .i true (by decide)
  | plp | rti =>
    intro f hf
    exact absurd (by cases f <;> decide) hf
  | jsr _ =>
    cases h
    rw [State.finish_p, State.pushWord_p]
    exact keepsFlags.refl _ s.p
  | sta _ | stx _ | sty _ | txs | pha | php | jmp _ | rts | nop | bpl _ | bmi _ | bvc _ | bvs _ | bcc _ | bcs _
  | bne _ | beq _ | invalid _ =>
    cases h
    exact keepsFlags.refl _ s.p

/-- The rows of R25's table that have V (R131). -/
theorem vWriter_of_mem_flagsWritten {i : Instr} (h : Flag.v ∈ flagsWritten i) :
    i ∈ [Instr.clv, Instr.plp, Instr.rti] ∨ (∃ o, i = .adc o ∨ i = .sbc o) ∨ ∃ m, i = .bit m := by
  cases i with
  | clv | plp | rti => exact .inl (by decide)
  | adc o => exact .inr (.inl ⟨o, .inl rfl⟩)
  | sbc o => exact .inr (.inl ⟨o, .inr rfl⟩)
  | bit m => exact .inr (.inr ⟨m, rfl⟩)
  | _ => simp [flagsWritten] at h

/-- Settles O8: the bit test with its opcodes; an instruction that changes V has it in its row of R25's table. -/
theorem bitTestReadsMemoryBits : Obligations.BitTestReadsMemoryBits := by
  refine ⟨bit_effect, fun _ _ => ⟨rfl, rfl⟩, fun i s t hexec hchanged => vWriter_of_mem_flagsWritten ?_⟩
  by_contra hkept
  exact hchanged (exec_flagsKept hexec .v hkept)

end Sys2Proof.Machine
end

section
/-! PROOFS. Shift, rotate, increment and decrement (R140 to R150). The shifters are related to exact arithmetic first, a
rotate being one equation between nine-bit numbers; then what the shared shift step and the shared read-modify-write
leave is said once, for any result. The register forms are a register write with its `SetNZ`, like a transfer. -/

namespace Sys2Proof.Machine

/-! ## The shifters in exact arithmetic -/

/-- A bit of a byte as a digit of its number. -/
theorem byte_bit_toNat (v : Byte) (k : Nat) : (v.getLsbD k).toNat = v.toNat / 2 ^ k % 2 :=
  Nat.toNat_testBit v.toNat k

/-- `asl` doubles, wrapped to eight bits (R141). -/
theorem shiftLeft_value_toNat (v : Byte) : (shiftLeft v).value.toNat = 2 * v.toNat % 256 := by
  rw [shiftLeft, BitVec.toNat_shiftLeft, Nat.shiftLeft_eq, Nat.mul_comm]

/-- `lsr` halves (R142). -/
theorem shiftRight_value_toNat (v : Byte) : (shiftRight v).value.toNat = v.toNat / 2 := by
  rw [shiftRight, BitVec.toNat_ushiftRight, Nat.shiftRight_eq_div_pow]

/-- `lsr` leaves bit 7 clear (R142). -/
theorem shiftRight_value_bit7 (v : Byte) : (shiftRight v).value.getLsbD 7 = false := by
  rw [shiftRight, BitVec.getLsbD_ushiftRight]
  exact BitVec.getLsbD_of_ge v 8 le_rfl

/-- The old carry widened to a byte. -/
theorem carryByte_toNat (c : Bool) : ((BitVec.ofBool c).setWidth 8).toNat = c.toNat := by
  cases c <;> rfl

/-- `rol` doubles within eight bits, and the old carry fills bit 0, which the doubled number leaves clear (R143). -/
theorem rotateLeft_value_toNat (v : Byte) (c : Bool) :
    (rotateLeft v c).value.toNat = 2 * (v.toNat % 128) + c.toNat := by
  have hdouble : (v <<< 1).toNat = 2 ^ 1 * (v.toNat % 128) := by
    rw [BitVec.toNat_shiftLeft, Nat.shiftLeft_eq]
    omega
  have hc : c.toNat < 2 ^ 1 := c.toNat_lt
  rw [rotateLeft, BitVec.toNat_or, hdouble, carryByte_toNat, ← Nat.two_pow_add_eq_or_of_lt hc, pow_one]

/-- `ror` halves, and the old carry fills bit 7, which the halved number leaves clear (R144). -/
theorem rotateRight_value_toNat (v : Byte) (c : Bool) :
    (rotateRight v c).value.toNat = v.toNat / 2 + 128 * c.toNat := by
  have hhalf : (v >>> 1).toNat = v.toNat / 2 := shiftRight_value_toNat v
  have hlow : v.toNat / 2 < 2 ^ 7 := by have := v.isLt; omega
  have htop : ((BitVec.ofBool c).setWidth 8 <<< 7).toNat = 2 ^ 7 * c.toNat := by cases c <;> rfl
  rw [rotateRight, BitVec.toNat_or, hhalf, htop, Nat.or_comm, ← Nat.two_pow_add_eq_or_of_lt hlow, Nat.add_comm]

/-- `rol` on the nine bits of carry and byte: the new ones are the old ones one place up, bit 8 being the carry out
(R143). -/
theorem rotateLeft_nine_bits (v : Byte) (c : Bool) :
    256 * (rotateLeft v c).carry.toNat + (rotateLeft v c).value.toNat = 2 * v.toNat + c.toNat := by
  have hv := v.isLt
  have hcarry : (rotateLeft v c).carry.toNat = v.toNat / 2 ^ 7 % 2 := byte_bit_toNat v 7
  rw [hcarry, rotateLeft_value_toNat]
  omega

/-- `ror` on the nine bits of carry and byte: the old ones are the new ones one place up, bit 0 being the carry out
(R144). -/
theorem rotateRight_nine_bits (v : Byte) (c : Bool) :
    2 * (rotateRight v c).value.toNat + (rotateRight v c).carry.toNat = 256 * c.toNat + v.toNat := by
  have hcarry : (rotateRight v c).carry.toNat = v.toNat / 2 ^ 0 % 2 := byte_bit_toNat v 0
  rw [hcarry, rotateRight_value_toNat]
  omega

/-! ## Writing the operand of a shift -/

@[simp] theorem State.memRead_memWrite_same (s : State) (a : Word) (v : Byte) : (s.memWrite a v).memRead a = v := by
  rw [State.memRead_memWrite, if_pos rfl]

theorem State.memKept_memWrite (s : State) (a : Word) (v : Byte) : s.memKept (s.memWrite a v) [a] := by
  intro b hb
  rw [State.memRead_memWrite, if_neg (List.ne_of_not_mem_cons hb).symm]

theorem State.regsKept_memWrite (s : State) (a : Word) (v : Byte) : s.regsKept (s.memWrite a v) [] := by
  intro r _
  cases r <;> rfl

@[simp] theorem storeShift_pc (o : ShiftOperand) (r : Byte) (s : State) : (storeShift o r s).pc = s.pc := by
  cases o <;> rfl

/-- The store of a shift's result, at the end of a step that also writes P. -/
theorem shiftTook_storeShift (o : ShiftOperand) (r p : Byte) (s : State) (len : Nat) :
    shiftTook o r s (((storeShift o r s).setP p).finish len none) := by
  cases o with
  | acc => exact ⟨rfl, s.regsKept_setReg .a r, s.memKept_setReg .a r⟩
  | mem m =>
    exact ⟨s.memRead_memWrite_same (effectiveAddr m s) r, s.regsKept_memWrite (effectiveAddr m s) r,
      s.memKept_memWrite (effectiveAddr m s) r⟩

/-! ## Shifts and rotates -/

/-- N and Z of a shift follow its result (R141 to R144). -/
theorem readFlag_writeShifted_nz (p : Byte) (r : Shifted) :
    readFlag (writeShifted p r) .n = r.value.getLsbD 7 ∧ readFlag (writeShifted p r) .z = decide (r.value = 0) :=
  ⟨(readFlag_writeShifted p r .n).trans (BitVec.msb_eq_getLsbD_last r.value), readFlag_writeShifted p r .z⟩

/-- A shift of any kind: the operand takes the result, its carry goes to C, N and Z follow the result (R140). -/
theorem shiftStep_effect (o : ShiftOperand) (r : Shifted) (s : State) :
    ∃ t, shiftStep o r s = .next t ∧ shiftTook o r.value s t ∧ t.flag .c = r.carry ∧ t.showsNZ r.value ∧
      s.flagsKept t [.n, .z, .c] ∧ s.wentOn t o.mode.len :=
  ⟨_, rfl, shiftTook_storeShift o r.value _ s _, readFlag_writeShifted s.p r .c, readFlag_writeShifted_nz s.p r,
    keepsFlags_writeShifted s.p r, State.wentOn_finish (storeShift_pc o r.value s) _⟩

/-- Settles O9: the two shifters' laws for what the shift step leaves, and the decoder evaluated on each opcode. -/
theorem shiftsMoveOneBit : Obligations.ShiftsMoveOneBit := by
  refine ⟨fun o s => ?_, fun o s => ?_, fun b1 b2 => by and_intros <;> rfl⟩
  · obtain ⟨t, hexec, htook, hrest⟩ := shiftStep_effect o (shiftLeft (shiftValue o s)) s
    exact ⟨t, _, hexec, htook, shiftLeft_value_toNat _, hrest⟩
  · obtain ⟨t, hexec, htook, hc, ⟨hn, hz⟩, hrest⟩ := shiftStep_effect o (shiftRight (shiftValue o s)) s
    exact ⟨t, _, hexec, htook, shiftRight_value_toNat _, hc, ⟨hn, hz⟩, hn.trans (shiftRight_value_bit7 _), hrest⟩

/-- Settles O10: the nine-bit equations for what the shift step leaves, and the decoder evaluated on each opcode. -/
theorem rotatesPassThroughCarry : Obligations.RotatesPassThroughCarry := by
  refine ⟨fun o s => ?_, fun o s => ?_, fun b1 b2 => by and_intros <;> rfl⟩
  · obtain ⟨t, hexec, htook, hc, hrest⟩ := shiftStep_effect o (rotateLeft (shiftValue o s) (s.flag .c)) s
    refine ⟨t, _, hexec, htook, ?_, hrest⟩
    rw [hc, rotateLeft_nine_bits]
  · obtain ⟨t, hexec, htook, hc, hrest⟩ := shiftStep_effect o (rotateRight (shiftValue o s) (s.flag .c)) s
    refine ⟨t, _, hexec, htook, ?_, hrest⟩
    rw [hc, rotateRight_nine_bits]

/-! ## Increments and decrements -/

theorem byte_add_one_toNat (v : Byte) : (v + 1).toNat = (v.toNat + 1) % 256 := BitVec.toNat_add v 1

theorem byte_sub_one_toNat (v : Byte) : (v - 1).toNat = (v.toNat + 255) % 256 := by
  rw [BitVec.toNat_sub, Nat.add_comm]
  rfl

/-- A read-modify-write of a result with the number `n`: the byte at the effective address takes it, N and Z follow it
(R145, R146). -/
theorem modifyStep_effect (m : MemOperand) (r : Byte) (s : State) {n : Nat} (hr : r.toNat = n) :
    ∃ t, modifyStep m r s = .next t ∧ (t.memRead (effectiveAddr m s)).toNat = n ∧
      t.showsNZ (t.memRead (effectiveAddr m s)) ∧ s.flagsKept t [.n, .z] ∧ s.regsKept t [] ∧
      s.memKept t [effectiveAddr m s] ∧ s.wentOn t m.mode.len := by
  obtain ⟨t, ht⟩ : ∃ t, modifyStep m r s = .next t := ⟨_, rfl⟩
  have hread : t.memRead (effectiveAddr m s) = r := by
    rw [modifyStep_next m r s t ht]
    exact s.memRead_memWrite_same (effectiveAddr m s) r
  refine ⟨t, ht, hread ▸ hr, ?_⟩
  rw [hread]
  obtain rfl := modifyStep_next m r s t ht
  exact ⟨State.showsNZ_setNZ _ r, keepsFlags_writeNZ s.p r, s.regsKept_memWrite (effectiveAddr m s) r,
    s.memKept_memWrite _ r, State.wentOn_finish rfl _⟩

/-- Settles O11: the read-modify-write of the byte plus and minus one, and the decoder evaluated on each opcode. -/
theorem memoryIncrementsWrap : Obligations.MemoryIncrementsWrap := by
  refine ⟨fun m s => modifyStep_effect m _ s (byte_add_one_toNat _),
    fun m s => modifyStep_effect m _ s (byte_sub_one_toNat _), fun b1 b2 => ?_⟩
  and_intros <;> rfl

/-- A register that takes a byte by an Implicit instruction, said of what it then holds (R147 to R150). -/
theorem implied_setReg_effect (r : Reg) (v : Byte) (s : State) {n : Nat} (hv : v.toNat = n) :
    ∃ t, implied ((s.setReg r v).setNZ v) = .next t ∧ (t.reg r).toNat = n ∧ t.showsNZ (t.reg r) ∧
      s.flagsKept t [.n, .z] ∧ s.regsKept t [r] ∧ s.memKept t [] ∧ s.wentOn t 1 := by
  obtain ⟨t, hexec, rfl, hrest⟩ := transfer_tookByte r v s
  exact ⟨t, hexec, hv, hrest⟩

/-- Settles O12: X and Y plus and minus one, and the decoder evaluated on each opcode. -/
theorem registerIncrementsWrap : Obligations.RegisterIncrementsWrap := by
  refine ⟨fun s => implied_setReg_effect .x (s.x + 1) s (byte_add_one_toNat s.x),
    fun s => implied_setReg_effect .y (s.y + 1) s (byte_add_one_toNat s.y),
    fun s => implied_setReg_effect .x (s.x - 1) s (byte_sub_one_toNat s.x),
    fun s => implied_setReg_effect .y (s.y - 1) s (byte_sub_one_toNat s.y), fun b1 b2 => ?_⟩
  and_intros <;> rfl

end Sys2Proof.Machine
end

section
/-! PROOFS. `jmp` and the branches (R160, R161, R164 to R172). They end a step from the state as it is and choose only
the target, so the frame is that of `State.finish`; the eight branches are one step shape with a flag, set or clear, as
its condition. -/

namespace Sys2Proof.Machine

/-- The end of a step moves PC and gives the report; registers, flags and memory stay (R74, R89). -/
theorem State.frame_finish (s : State) (len : Nat) (target : Option Word) :
    s.regsKept (s.finish len target) [] ∧ s.flagsKept (s.finish len target) [] ∧ s.memKept (s.finish len target) [] :=
  ⟨fun r _ => by cases r <;> rfl, fun _ _ => rfl, fun _ _ => rfl⟩

/-! ## Jumps -/

/-- A jump by either operand form: PC is the target, nothing else changes (R161). -/
theorem jmp_effect (o : JumpOperand) (s : State) :
    ∃ t, exec (.jmp o) s = .next t ∧ t.pc = jumpTarget o s ∧ s.regsKept t [] ∧ s.flagsKept t [] ∧ s.memKept t [] :=
  ⟨_, rfl, rfl, s.frame_finish o.mode.len (some (jumpTarget o s))⟩

/-- A jump to itself changes nothing of the core, so the next one, which sees the core only, answers the same (D11). -/
theorem jmp_self_repeats (s : State) :
    ∃ t, exec (.jmp (.abs s.pc)) s = .next t ∧ s.sameCore t ∧ exec (.jmp (.abs s.pc)) t = .next t := by
  have hsame : s.sameCore (s.finish Mode.absolute.len (some s.pc)) := rfl
  exact ⟨_, rfl, hsame, congrArg Host.Outcome.next (State.finish_eq_of_sameCore hsame.symm _ _)⟩

/-- Settles O13: the jump to either target, the jump to itself, and the decoder evaluated on both opcodes. -/
theorem jmpGoesToItsTarget : Obligations.JmpGoesToItsTarget :=
  ⟨fun w => jmp_effect (.abs w), fun w => jmp_effect (.ind w), jmp_self_repeats, fun _ _ => ⟨rfl, rfl⟩⟩

/-! ## Branches -/

/-- A branch whose test decides `cond`: PC is the target when it holds, else two bytes on; nothing else changes
(R164). -/
theorem branchIf_effect {taken : Bool} {cond : Prop} [Decidable cond] (htest : taken = true ↔ cond) (off : Byte)
    (s : State) :
    ∃ t, branchIf taken off s = .next t ∧ t.pc = (if cond then s.pc + 2 + sext16 off else s.pc + 2) ∧
      s.regsKept t [] ∧ s.flagsKept t [] ∧ s.memKept t [] := by
  refine ⟨_, rfl, ?_, s.frame_finish _ _⟩
  by_cases hcond : cond
  · rw [if_pos hcond, if_pos (htest.mpr hcond)]
    rfl
  · rw [if_neg hcond, if_neg (mt htest.mp hcond)]
    rfl

/-- A branch on a set flag (R166, R168, R170, R172). -/
theorem branchIf_flag_effect (f : Flag) (off : Byte) (s : State) :
    ∃ t, branchIf (s.flag f) off s = .next t ∧
      t.pc = (if s.flag f = true then s.pc + 2 + sext16 off else s.pc + 2) ∧
      s.regsKept t [] ∧ s.flagsKept t [] ∧ s.memKept t [] :=
  branchIf_effect Iff.rfl off s

/-- A branch on a clear flag (R165, R167, R169, R171). -/
theorem branchIf_not_flag_effect (f : Flag) (off : Byte) (s : State) :
    ∃ t, branchIf (!s.flag f) off s = .next t ∧
      t.pc = (if s.flag f = false then s.pc + 2 + sext16 off else s.pc + 2) ∧
      s.regsKept t [] ∧ s.flagsKept t [] ∧ s.memKept t [] :=
  branchIf_effect (by rw [Bool.not_eq_true']) off s

/-- Settles O17: each branch is a branch on its flag, clear or set, and the decoder is evaluated on each opcode. -/
theorem branchesTestOneFlag : Obligations.BranchesTestOneFlag := by
  refine ⟨branchIf_not_flag_effect .n, branchIf_flag_effect .n, branchIf_not_flag_effect .v, branchIf_flag_effect .v,
    branchIf_not_flag_effect .c, branchIf_flag_effect .c, branchIf_not_flag_effect .z, branchIf_flag_effect .z,
    fun b1 b2 => ?_⟩
  and_intros <;> rfl

end Sys2Proof.Machine
end

section
/-! PROOFS. Stack, flag and no-operation instructions (R180, R184 to R191). Pushing a byte and writing a flag are said
once, for any byte and any flag. Every instruction but `nop` shows from one of two states, P all set or all clear: by P
(`SetNZ` and a compare never leave N and Z both set, a flag was the other way), by the byte stored, by SP, or by PC,
where a branch shows unless its offset is 0. -/

namespace Sys2Proof.Machine

/-! ## Pushing a byte -/

/-- A push of any byte by an Implicit instruction: its slot takes it and SP goes down (R180, R181). -/
theorem implied_push_effect (v : Byte) (s : State) :
    ∃ t, implied (s.push v) = .next t ∧ t.memRead (stackAddr s.sp) = v ∧ t.sp.toNat = (s.sp.toNat + 255) % 256 ∧
      s.regsKept t [.sp] ∧ s.flagsKept t [] ∧ s.memKept t [stackAddr s.sp] ∧ s.wentOn t 1 :=
  ⟨_, rfl, s.memRead_push_same v, s.push_sp_toNat v, s.regsKept_push v, fun _ _ => rfl, s.memKept_push v, rfl⟩

/-- Settles O21: the push of A, and the decoder evaluated on the opcode. -/
theorem phaPushesTheAccumulator : Obligations.PhaPushesTheAccumulator :=
  ⟨fun s => implied_push_effect s.a s, fun _ _ => rfl⟩

/-! ## Writing a flag -/

/-- A write of any flag by an Implicit instruction: that bit of P takes the value, nothing else changes (R184 to
R190). -/
theorem implied_setFlag_effect (f : Flag) (on : Bool) (s : State) :
    ∃ t, implied (s.setFlag f on) = .next t ∧ t.flag f = on ∧ s.flagsKept t [f] ∧ s.regsKept t [] ∧ s.memKept t [] ∧
      s.wentOn t 1 :=
  ⟨_, rfl, readFlag_writeFlag_same s.p f on,
    (keepsFlags.refl [f] s.p).writeFlag f on (List.mem_singleton_self f), s.frame_setP _ _⟩

/-- Settles O25: the flag write for each instruction's flag and value, and the decoder evaluated on each opcode. -/
theorem flagInstructionsWriteOneBit : Obligations.FlagInstructionsWriteOneBit := by
  refine ⟨implied_setFlag_effect .c false, implied_setFlag_effect .c true, implied_setFlag_effect .i false,
    implied_setFlag_effect .i true, implied_setFlag_effect .d false, implied_setFlag_effect .d true,
    implied_setFlag_effect .v false, fun b1 b2 => ?_⟩
  and_intros <;> rfl

/-! ## The instruction that does nothing -/

/-- The instruction does nothing from any state: PC goes on by its length and the rest of the core stays. -/
def onlyAdvances (i : Instr) : Prop :=
  ∀ s t : State, exec i s = .next t → s.sameCore (t.setPC s.pc) ∧ s.wentOn t i.len

theorem onlyAdvances_nop : onlyAdvances .nop := by
  intro s t h
  cases h
  exact ⟨rfl, rfl⟩

section
variable {i : Instr} {s t : State}

/-- What a do-nothing instruction leaves agrees with what it found, but for PC and the report. -/
theorem onlyAdvances.core_eq (h : onlyAdvances i) (hexec : exec i s = .next t) :
    (t.setPC s.pc).setResult none = s.setResult none :=
  (h s t hexec).1.symm

theorem onlyAdvances.p_eq (h : onlyAdvances i) (hexec : exec i s = .next t) : t.p = s.p :=
  (congrArg State.p (h.core_eq hexec) :)

/-- A do-nothing instruction that ends by writing P wrote what P was. -/
theorem onlyAdvances.p_eq_of_setP {u : State} {p : Byte} {len : Nat} {target : Option Word} (h : onlyAdvances i)
    (hexec : exec i s = .next ((u.setP p).finish len target)) : p = s.p :=
  (h.p_eq hexec :)

theorem onlyAdvances.sp_eq (h : onlyAdvances i) (hexec : exec i s = .next t) : t.sp = s.sp :=
  (congrArg State.sp (h.core_eq hexec) :)

theorem onlyAdvances.mem_eq (h : onlyAdvances i) (hexec : exec i s = .next t) : t.mem = s.mem :=
  (congrArg State.mem (h.core_eq hexec) :)

theorem onlyAdvances.pc_eq (h : onlyAdvances i) (hexec : exec i s = .next t) : t.pc = s.pc + BitVec.ofNat 16 i.len :=
  (h s t hexec).2

end

/-- `SetNZ` never leaves N and Z both set: bit 7 of 0 is clear (R90). -/
theorem writeNZ_ne_allSet (p v : Byte) : writeNZ p v ≠ 0xFF := by
  intro h
  have hn : v.msb = true := (readFlag_writeNZ p v .n).symm.trans (congrArg (readFlag · .n) h)
  have hz : (v == 0) = true := (readFlag_writeNZ p v .z).symm.trans (congrArg (readFlag · .z) h)
  rw [eq_of_beq hz] at hn
  exact absurd hn (by decide)

/-- Nor does a compare: the difference of equal bytes is 0 (R128). -/
theorem writeCompare_ne_allSet (p r m : Byte) : writeCompare p r m ≠ 0xFF := by
  intro h
  have hn : (r - m).msb = true := (readFlag_writeCompare p r m .n).symm.trans (congrArg (readFlag · .n) h)
  have hz : (r == m) = true := (readFlag_writeCompare p r m .z).symm.trans (congrArg (readFlag · .z) h)
  rw [eq_of_beq hz, BitVec.sub_self] at hn
  exact absurd hn (by decide)

/-- A branch whose target is the next instruction has the offset 0 (R87). -/
theorem eq_zero_of_branchTarget_eq {off : Byte} {s : State} (h : branchTarget off s = s.pc + 2) : off = 0 := by
  have hoff : sext16 off = 0 := BitVec.add_right_eq_self.mp h
  have hnat : (sext16 off).toNat = 0 := congrArg BitVec.toNat hoff
  rw [sext16_toNat] at hnat
  apply BitVec.eq_of_toNat_eq
  show off.toNat = 0
  split at hnat <;> omega

/-- The states that tell `nop` from the others, with P 0x00 or 0xFF: the memory is all 0 and A, X, Y are not, so that a
store shows, and X differs from SP, so that `txs` does. -/
def State.probe (p : Byte) : State := { State.reset with a := 1, x := 1, y := 1, p := p }

/-- What does nothing and has no operand byte 0, as a branch to the next instruction has, is `nop`; one case per reason
why an instruction shows. -/
theorem eq_nop_of_onlyAdvances {i : Instr} (h : onlyAdvances i) (hoperand : (0 : Byte) ∉ i.operandBytes) : i = .nop := by
  cases i with
  | nop => rfl
  | lda _ | ldx _ | ldy _ | tax | tay | txa | tya | tsx | pla | and _ | ora _ | eor _ | inc _ | dec _ | inx | iny | dex
  | dey | adc _ | sbc _ | asl _ | lsr _ | rol _ | ror _ =>
    exact absurd (h.p_eq_of_setP (s := .probe 0xFF) rfl) (writeNZ_ne_allSet _ _)
  | cmp _ | cpx _ | cpy _ => exact absurd (h.p_eq_of_setP (s := .probe 0xFF) rfl) (writeCompare_ne_allSet _ _ _)
  | bit m =>
    have hp : writeBitTest 0xFF 1 0 = 0xFF := h.p_eq_of_setP (s := .probe 0xFF) rfl
    exact absurd hp (by decide)
  | clc | cli | cld | clv => exact absurd (h.p_eq (s := .probe 0xFF) rfl) (by decide)
  | sec | sei | sed => exact absurd (h.p_eq (s := .probe 0x00) rfl) (by decide)
  | sta m | stx m | sty m =>
    have hmem : Memory.write [] (effectiveAddr m (.probe 0x00)) 1 = [] := h.mem_eq (s := .probe 0x00) rfl
    exact absurd hmem (List.cons_ne_nil _ _)
  | txs | pha | php | plp | rts | brk | rti => exact absurd (h.sp_eq (s := .probe 0x00) rfl) (by decide)
  | jsr w =>
    have hsp : (0xFD : Byte) = 0xFF := h.sp_eq (s := .probe 0x00) rfl
    exact absurd hsp (by decide)
  | jmp o =>
    -- with PC at its target already, a jump stays there (D11)
    have hpc := h.pc_eq (s := (State.probe 0x00).setPC (jumpTarget o (.probe 0x00))) rfl
    have hlen : (3 : Word) = 0 := by cases o <;> exact BitVec.add_right_eq_self.mp hpc.symm
    exact absurd hlen (by decide)
  | bpl off | bvc off | bcc off | bne off =>
    have hzero : off = 0 := eq_zero_of_branchTarget_eq (h.pc_eq (s := .probe 0x00) rfl)
    exact absurd (List.mem_singleton.mpr hzero.symm) hoperand
  | bmi off | bvs off | bcs off | beq off =>
    have hzero : off = 0 := eq_zero_of_branchTarget_eq (h.pc_eq (s := .probe 0xFF) rfl)
    exact absurd (List.mem_singleton.mpr hzero.symm) hoperand
  | invalid op =>
    have hpc : (0 : Word) = 1 := h.pc_eq (s := .probe 0x00) rfl
    exact absurd hpc (by decide)

/-- An opcode that does nothing whatever its operand is that of `nop`: with operand bytes 1 it is not a branch to the
next instruction. -/
theorem opcode_eq_of_onlyAdvances {op : Byte} (h : onlyAdvances (decodeBytes op 1 1)) : op = 0xEA := by
  have hoperand : (0 : Byte) ∉ (decodeBytes op 1 1).operandBytes := by
    rw [operandBytes_decodeBytes]
    exact fun hmem => absurd (List.mem_of_mem_take hmem) (by decide)
  have hopcode := opcode_decodeBytes op 1 1
  rw [eq_nop_of_onlyAdvances h hoperand] at hopcode
  exact (Option.some.inj hopcode).symm

/-- The length of what a byte decodes to is the byte's own (R52). -/
theorem len_decodeBytes (op b1 b2 : Byte) : (decodeBytes op b1 b2).len = opcodeLen op :=
  congrArg Mode.len (decodesRow_decodeBytes_zero op b1 b2).mode

/-- Settles O26: `nop` does nothing, the port sees its opcode read alone, and an opcode that does nothing is its;
an Invalid byte need not be set apart, since the decode failure keeps PC. -/
theorem nopOnlyAdvances : Obligations.NopOnlyAdvances := by
  refine ⟨fun s => ?_, fun s hfetch => ?_, fun op _ h => ?_, fun _ _ => rfl⟩
  · obtain ⟨t, hexec⟩ := exec_total .nop s
    exact ⟨t, hexec, onlyAdvances_nop s t hexec⟩
  · rw [stepTransactions, hfetch]
    rfl
  · refine opcode_eq_of_onlyAdvances fun s t hexec => ?_
    rw [len_decodeBytes]
    exact h 1 1 s t hexec

end Sys2Proof.Machine
end

section
/-! PROOFS. A run of the host's actions (R209, R241). The invariant speaks of the memory and of the last report alone: a
step keeps it, a reset keeps the memory and clears the report, a host write to a register touches neither and one to
memory is a store or two. No action fails, so a run goes on to its end. -/

namespace Sys2Proof.Machine

/-- A store keeps the invariant: the canonical form stays, the report is not touched. -/
theorem State.good_memWrite {s : State} (hs : s.good = true) (a : Word) (v : Byte) : (s.memWrite a v).good = true := by
  obtain ⟨hmem, hresult⟩ := Bool.and_eq_true_iff.mp hs
  exact Bool.and_eq_true_iff.mpr ⟨Memory.wf_write s.mem a v hmem, hresult⟩

/-- A state without a report is good when its memory has the canonical form. -/
theorem State.good_of_result_none {s : State} (hmem : s.mem.wf = true) (hresult : s.result = none) :
    s.good = true := by
  simp [State.good, hmem, hresult]

/-- Every host write keeps the invariant: the memory writes store, the others change neither field it speaks of. -/
theorem hostWrite_good {s : State} (hs : s.good = true) (h : HostWrite) : (hostWrite h s).good = true := by
  cases h with
  | a _ | x _ | y _ | sp _ | pc _ | flag _ _ | status _ => exact hs
  | mem addr v => exact State.good_memWrite hs addr v
  | memWord addr w => exact State.good_memWrite (State.good_memWrite hs addr (loByte w)) (addr + 1) (hiByte w)

/-- Every action of the host keeps the invariant. -/
theorem hostAct_good {h : HostAction} {s t : State} (hs : s.good = true) (hact : hostAct h s = .next t) :
    t.good = true := by
  cases h with
  | command c =>
    have hmem : s.mem.wf = true := (Bool.and_eq_true_iff.mp hs).1
    cases c with
    | execute => exact everyStepKeepsGoodStates s t hs hact
    | softReset | hardReset =>
      cases hact
      exact State.good_of_result_none hmem rfl
  | write w =>
    cases hact
    exact hostWrite_good hs w

/-- A run whose first action answers `t` goes on from `t`. -/
theorem hostRun_cons {h : HostAction} {s t : State} (hact : hostAct h s = .next t) (rest : List HostAction) :
    hostRun (h :: rest) s = hostRun rest t := by
  simp only [hostRun, hact]

/-- Settles O47, by induction on the list of actions: the first one answers a good state, and the rest run from it. -/
theorem hostRunsCompleteAndKeepGoodStates : Obligations.HostRunsCompleteAndKeepGoodStates := by
  intro actions
  induction actions with
  | nil => exact fun s hgood => ⟨s, rfl, hgood⟩
  | cons h rest ih =>
    intro s hgood
    obtain ⟨t, hact⟩ := hostAct_total h s
    rw [hostRun_cons hact]
    exact ih t (hostAct_good hgood hact)

end Sys2Proof.Machine
end

section
/-! PROOFS. The decode failure (R200, R201). It sets the port's answer and nothing else, so it keeps whatever the core
holds, and since no step reads that answer (R26) the next `Execute` fails in the same way. -/

namespace Sys2Proof.Machine

/-- Raising the one exception changes nothing of the core (R200). -/
theorem State.sameCore_raiseUnimplemented (s : State) : s.sameCore s.raiseUnimplemented := rfl

section
variable {s t : State}

/-- States with the same core hold the same registers, flags, memory and PC. -/
theorem State.sameCore.regsKept (h : s.sameCore t) : s.regsKept t [] := by
  intro r _
  have hreg : (t.setResult none).reg r = (s.setResult none).reg r := congrArg (·.reg r) h.symm
  cases r <;> exact hreg

theorem State.sameCore.flagsKept (h : s.sameCore t) : s.flagsKept t [] :=
  fun f _ => (congrArg (·.flag f) h.symm :)

theorem State.sameCore.memKept (h : s.sameCore t) : s.memKept t [] :=
  fun b _ => (congrArg (·.memRead b) h.symm :)

theorem State.sameCore.pc_eq (h : s.sameCore t) : t.pc = s.pc :=
  (congrArg (·.pc) h.symm :)

end

/-- Settles O27: the failure answers the state with the error in its report, and the rest is one core. -/
theorem decodeFailureChangesNothing : Obligations.DecodeFailureChangesNothing := by
  intro op s
  have hcore := s.sameCore_raiseUnimplemented
  exact ⟨s.raiseUnimplemented, rfl, hcore, hcore.regsKept, hcore.flagsKept, hcore.memKept, hcore.pc_eq, rfl⟩

/-- At a byte of R59 the fetch gives the decode failure, whatever stands after it. -/
theorem fetchInstr_of_mem_invalidBytes {s : State} (h : s.memRead s.pc ∈ invalidBytes) :
    fetchInstr s = .invalid (s.memRead s.pc) :=
  decodeBytes_of_mem_invalidBytes h _ _

/-- `Execute` at a byte of R59 raises the exception (R200). -/
theorem step_of_mem_invalidBytes {s : State} (h : s.memRead s.pc ∈ invalidBytes) :
    step s = .next s.raiseUnimplemented := by
  rw [step, fetchInstr_of_mem_invalidBytes h]
  rfl

/-- After the failure the next step is the step from before it (R26, R201). -/
theorem step_raiseUnimplemented (s : State) : step s.raiseUnimplemented = step s := step_setResult s _

/-- Settles O28: the failing state is a fixed point of the step, since only the port's answer is new in it; a host write
of PC sets it, and a hard reset sees the core only. -/
theorem decodeFailureRepeatsUntilTheHostActs : Obligations.DecodeFailureRepeatsUntilTheHostActs := by
  intro s hinvalid
  have hstep := step_of_mem_invalidBytes hinvalid
  refine ⟨?_, s.raiseUnimplemented, hstep, s.sameCore_raiseUnimplemented, ?_, fun w => ⟨rfl, fun _ _ => rfl⟩,
    s.hardReset_setResult _⟩
  · rw [stepTransactions, fetchInstr_of_mem_invalidBytes hinvalid]
    rfl
  · rw [step_raiseUnimplemented, hstep]

end Sys2Proof.Machine
end

section
/-! PROOFS. What a host write changes (R46, R210, R211). Each is one write of a register, of P or of a byte of memory,
whose effect the laws of the state say already; writing the old value back gives the old state. -/

namespace Sys2Proof.Machine

/-- Settles O34: the core's store and the host's are the same write, and a read after it is R46's. -/
theorem memoryIsPlainRam : Obligations.MemoryIsPlainRam := by
  intro s addr b v
  have hread : (s.memWrite addr v).memRead b = if b = addr then v else s.memRead b :=
    (s.memRead_memWrite addr b v).trans (if_congr eq_comm rfl rfl)
  exact ⟨hread, hread⟩

/-- Writing a register's old value back gives the old state: the first write changed nothing else. -/
theorem State.setReg_setReg_restore (s : State) (r : Reg) (v : Byte) : (s.setReg r v).setReg r (s.reg r) = s := by
  cases r <;> rfl

/-- A flag write changes no other bit of P. -/
theorem State.flagsKept_setFlag (s : State) (f : Flag) (on : Bool) : s.flagsKept (s.setFlag f on) [f] :=
  (keepsFlags.refl [f] s.p).writeFlag f on (List.mem_singleton_self f)

/-- Settles O52: the four register writes, then PC, a flag, the status word and a byte of memory. -/
theorem hostWritesChangeOneThing : Obligations.HostWritesChangeOneThing := by
  intro s v w f on
  refine ⟨⟨rfl, s.regsKept_setReg .a v, s.setReg_setReg_restore .a v⟩,
    ⟨rfl, s.regsKept_setReg .x v, s.setReg_setReg_restore .x v⟩,
    ⟨rfl, s.regsKept_setReg .y v, s.setReg_setReg_restore .y v⟩,
    ⟨rfl, s.regsKept_setReg .sp v, s.setReg_setReg_restore .sp v⟩, ⟨rfl, rfl⟩, ⟨?_, s.flagsKept_setFlag f.flag on, rfl⟩,
    ⟨rfl, rfl⟩, ⟨?_, s.memKept_memWrite w v, s.regsKept_memWrite w v, fun _ _ => rfl, rfl⟩⟩
  · exact congrArg HostValue.bit (readFlag_writeFlag_same s.p f.flag on)
  · exact congrArg HostValue.byte (s.memRead_memWrite_same w v)

end Sys2Proof.Machine
end

section
/-! PROOFS. Both resets (R230 to R232). `SoftReset` is the read of the vector's word and one flag write; `HardReset`
keeps nothing but the memory, so a second one finds what the first one found. -/

namespace Sys2Proof.Machine

/-- Writing a flag twice with one value is writing it once. -/
theorem writeFlag_writeFlag_same (p : Byte) (f : Flag) (on : Bool) :
    writeFlag (writeFlag p f on) f on = writeFlag p f on := by
  apply status_ext
  intro g
  by_cases h : f = g <;> simp [readFlag_writeFlag, h]

/-- A reset's list of transactions: the two bytes of the vector, low byte first (R35, R41). -/
theorem readsOf_resetVector (s : State) : readsOf s [Config.resetVector, Config.resetVector + 1] =
    [.read 0xFFFC (s.memRead 0xFFFC), .read 0xFFFD (s.memRead 0xFFFD)] := rfl

/-- A second `SoftReset` sets I again and reads the vector from the same memory (R232). -/
theorem State.softReset_softReset (s : State) : s.softReset.softReset = s.softReset :=
  congrArg (fun p => { s.softReset with p := p }) (writeFlag_writeFlag_same s.p .i true)

/-- Settles O46: the memory of `State.reset` lists nothing, and there is no report yet. -/
theorem resetStateIsGood : Obligations.ResetStateIsGood := State.good_of_result_none Memory.wf_empty rfl

/-- Settles O48: the flag write gives I and the frame of P; the list of transactions is the vector's two reads. -/
theorem softResetLoadsTheVector : Obligations.SoftResetLoadsTheVector := by
  intro s
  refine ⟨rfl, rfl, readFlag_writeFlag_same s.p .i true, s.flagsKept_setFlag .i true, fun r _ => by cases r <;> rfl,
    fun _ _ => rfl, rfl, fun x hx => ?_⟩
  have hreads : x ∈ [.read 0xFFFC (s.memRead 0xFFFC), .read 0xFFFD (s.memRead 0xFFFD)] := readsOf_resetVector s ▸ hx
  simpa using hreads

/-- Settles O49: the registers are those of `State.reset`, PC is the word of the vector, the memory is kept. -/
theorem hardResetSetsEveryRegister : Obligations.HardResetSetsEveryRegister := by
  intro s
  refine ⟨rfl, ?_⟩
  rw [State.hardReset_eq]
  exact ⟨rfl, rfl, rfl, rfl, rfl, rfl, fun _ _ => rfl⟩

/-- Settles O50: the second reset finds the memory, and so the vector, the first one found. -/
theorem resetsAreIdempotent : Obligations.ResetsAreIdempotent := by
  refine ⟨fun s => ⟨s.softReset_softReset, ?_⟩, fun s => ⟨⟨_, rfl⟩, ⟨_, rfl⟩⟩,
    fun s => ⟨readsOf_resetVector s, readsOf_resetVector s⟩⟩
  rw [s.hardReset.hardReset_eq, s.hardReset_eq]
  rfl

end Sys2Proof.Machine
end

section
/-! PROOFS. Word access (R35): two byte accesses, the second one address further. The two addresses differ, since 1 is
not 0 modulo 65536. -/

namespace Sys2Proof.Machine

theorem word_succ_ne (a : Word) : a + 1 ≠ a := by bv_omega

/-- A word read gives the word written there. -/
theorem Memory.readWord_writeWord (m : Memory) (addr w : Word) : (m.writeWord addr w).readWord addr = w := by
  have hlow : (m.writeWord addr w).read addr = loByte w := by
    rw [Memory.writeWord, Memory.read_write_other _ _ _ _ (word_succ_ne addr), Memory.read_write_same]
  have hhigh : (m.writeWord addr w).read (addr + 1) = hiByte w := Memory.read_write_same _ _ _
  rw [Memory.readWord, hlow, hhigh, joinBytes_bytes]

/-- A word write leaves every address but its two alone. -/
theorem Memory.read_writeWord_other (m : Memory) {addr b : Word} (w : Word) (hlow : b ≠ addr) (hhigh : b ≠ addr + 1) :
    (m.writeWord addr w).read b = m.read b := by
  rw [Memory.writeWord, Memory.read_write_other _ _ _ _ hhigh.symm, Memory.read_write_other _ _ _ _ hlow.symm]

/-- Settles O33: the number of the word read, the read after the write, and the write's frame. -/
theorem wordAccessIsLittleEndian : Obligations.WordAccessIsLittleEndian :=
  fun m addr w _ => ⟨m.readWord_toNat addr, m.readWord_writeWord addr w, m.read_writeWord_other w⟩

end Sys2Proof.Machine
end

section
/-! PROOFS. The bytes of R59 and the decode failure. What a byte decodes to has it as its opcode, and `invalid` has an
opcode for the listed bytes only. -/

namespace Sys2Proof
open Sys2Proof.Machine

/-- The opcode of a decode failure is a byte of R59's list. -/
theorem mem_invalidBytes_of_isInvalid {i : Instr} {op : Byte} (hop : i.opcode = some op) (h : isInvalid i = true) :
    op ∈ invalidBytes := by
  cases i with
  | invalid byte =>
    have hbyte : byte ∈ invalidBytes ∧ byte = op := by simpa [Instr.opcode] using hop
    obtain ⟨hmem, rfl⟩ := hbyte
    exact hmem
  | _ => cases h

/-- A byte decodes to the failure just when R59 lists it, whatever follows. -/
theorem isInvalid_decodeBytes (op b1 b2 : Byte) : isInvalid (decodeBytes op b1 b2) = decide (op ∈ invalidBytes) := by
  by_cases h : op ∈ invalidBytes
  · rw [decodeBytes_of_mem_invalidBytes h, decide_eq_true h]
    rfl
  · rw [decide_eq_false h, Bool.eq_false_iff]
    exact mt (mem_invalidBytes_of_isInvalid (opcode_decodeBytes op b1 b2)) h

/-- Settles O40: the list counted, and the two directions of the decoder's failures. -/
theorem invalidBytesAreExactlyTheListed : Obligations.InvalidBytesAreExactlyTheListed :=
  ⟨rfl, isInvalid_decodeBytes, fun _ b1 b2 h => decodeBytes_of_mem_invalidBytes h b1 b2⟩

end Sys2Proof
end

section
/-! PROOFS. The tables of the spec: the report of a step (R89, R200), the writers of the flags (R25) and of the
registers (R11 to R13), and PC (R15, R74). Each is read off a case split over the instructions, grouped by shape of
step. -/

namespace Sys2Proof.Machine

/-! ## The report -/

/-- The report of an instruction that is not the decode failure (R89). -/
theorem reportOf_of_isInvalid_eq_false {i : Instr} (h : isInvalid i = false) :
    reportOf i = { bytesConsumed := i.len, error := none } := by
  simp [reportOf, h]

/-- Settles O54: a step reports for the fetched instruction, whose length and failure its opcode byte decides. -/
theorem reportIsTheInstructionLength : Obligations.ReportIsTheInstructionLength := by
  refine ⟨fun s t hstep => ⟨fun hvalid => ?_, fun hinvalid => ?_⟩, fun i s t hvalid hexec => ?_⟩
  · have hfetch : isInvalid (fetchInstr s) = false :=
      (isInvalid_decodeBytes _ _ _).trans (decide_eq_false hvalid)
    have hlen : (fetchInstr s).len = opcodeLen (s.memRead s.pc) := len_decodeBytes _ _ _
    rw [(exec_next hstep).2, reportOf_of_isInvalid_eq_false hfetch, hlen]
  · obtain rfl := Host.Outcome.next.inj ((step_of_mem_invalidBytes hinvalid).symm.trans hstep)
    rfl
  · rw [(exec_next hexec).2, reportOf_of_isInvalid_eq_false hvalid]

/-! ## Flags and registers -/

/-- Settles O56: the flags' table was met instruction by instruction for the writers of V already. -/
theorem flagsChangeOnlyAsTabled : Obligations.FlagsChangeOnlyAsTabled := fun _ _ _ => exec_flagsKept

/-- A state with the same A, X and Y keeps every register but SP. -/
theorem State.regsKept_sp {s t : State} (ha : t.a = s.a) (hx : t.x = s.x) (hy : t.y = s.y) : s.regsKept t [.sp] := by
  intro r hr
  cases r with
  | a => exact ha
  | x => exact hx
  | y => exact hy
  | sp => exact absurd (List.mem_singleton_self Reg.sp) hr

theorem State.regsKept_pushWord (s : State) (w : Word) : s.regsKept (s.pushWord w) [.sp] :=
  State.regsKept_sp rfl rfl rfl

theorem State.regsKept_pulledWord (s : State) : s.regsKept s.pulledWord [.sp] := State.regsKept_sp rfl rfl rfl

theorem State.regsKept_enterBreak (s : State) : s.regsKept s.enterBreak [.sp] :=
  State.regsKept_sp s.enterBreak_a s.enterBreak_x s.enterBreak_y

theorem State.regsKept_leaveBreak (s : State) : s.regsKept s.leaveBreak [.sp] :=
  State.regsKept_sp s.leaveBreak_a s.leaveBreak_x s.leaveBreak_y

/-- The end of a step writes no register but PC (R74). -/
theorem State.regsKept.finish {s u : State} {but : List Reg} (h : s.regsKept u but) (len : Nat)
    (target : Option Word) : s.regsKept (u.finish len target) but := by
  intro r hr
  rw [← h r hr]
  cases r <;> rfl

/-- Nor does a write of P. -/
theorem State.regsKept.setP {s u : State} {but : List Reg} (h : s.regsKept u but) (p : Byte) :
    s.regsKept (u.setP p) but := by
  intro r hr
  rw [← h r hr]
  cases r <;> rfl

/-- An instruction writes the registers R11 to R13 name for it at most, one case per list. -/
theorem exec_regsKept {i : Instr} {s t : State} (h : exec i s = .next t) : s.regsKept t (regsWritten i) := by
  cases i with
  | lda _ | txa | tya | adc _ | sbc _ | and _ | ora _ | eor _ =>
    cases h
    exact s.regsKept_setReg .a _
  | asl o | lsr o | rol o | ror o =>
    cases o with
    | acc =>
      cases h
      exact s.regsKept_setReg .a _
    | mem m =>
      cases h
      exact ((s.regsKept_memWrite (effectiveAddr m s) _).setP _).finish _ _
  | ldx _ | tax | tsx | inx | dex =>
    cases h
    exact s.regsKept_setReg .x _
  | ldy _ | tay | iny | dey =>
    cases h
    exact s.regsKept_setReg .y _
  | pla =>
    cases h
    intro r hr
    obtain ⟨ha, hsp⟩ : r ≠ .a ∧ r ≠ .sp := by simpa [regsWritten] using hr
    cases r with
    | a => exact absurd rfl ha
    | sp => exact absurd rfl hsp
    | x | y => rfl
  | txs | plp =>
    cases h
    exact s.regsKept_setReg .sp _
  | pha | php =>
    cases h
    exact (s.regsKept_push _).finish _ _
  | jsr w =>
    cases h
    exact (s.regsKept_pushWord (s.pc + 2)).finish _ _
  | rts =>
    cases h
    exact s.regsKept_pulledWord.finish _ _
  | brk =>
    cases h
    exact s.regsKept_enterBreak.finish _ _
  | rti =>
    cases h
    exact s.regsKept_leaveBreak.finish _ _
  | sta m | stx m | sty m =>
    cases h
    exact (s.regsKept_memWrite (effectiveAddr m s) _).finish _ _
  | inc m | dec m =>
    cases h
    exact ((s.regsKept_memWrite (effectiveAddr m s) _).setP _).finish _ _
  | cmp _ | cpx _ | cpy _ | bit _ | clc | sec | cli | sei | cld | sed | clv =>
    cases h
    exact (s.frame_setP _ _).1
  | jmp _ | nop | bpl _ | bmi _ | bvc _ | bvs _ | bcc _ | bcs _ | bne _ | beq _ =>
    cases h
    exact (s.frame_finish _ _).1
  | invalid _ =>
    cases h
    exact s.sameCore_raiseUnimplemented.regsKept

/-- Settles O57: every instruction keeps to the lists of R11 to R13. -/
theorem registersChangeOnlyByTheirWriters : Obligations.RegistersChangeOnlyByTheirWriters :=
  fun _ _ _ => exec_regsKept

/-! ## PC -/

/-- An advance by some bytes as a number (R74, D13). -/
theorem State.wentOn.pc_toNat {s t : State} {len : Nat} (h : s.wentOn t len) :
    t.pc.toNat = (s.pc.toNat + len) % 65536 := by
  rw [h, BitVec.toNat_add, BitVec.toNat_ofNat]
  exact Nat.add_mod_mod _ _ _

/-- An instruction that may not set PC ends its step without a target, from a state with the PC it found (R74). -/
theorem exec_wentOn {i : Instr} {s t : State} (hi : mayLeaveSequence i = false) (h : exec i s = .next t) :
    s.wentOn t i.len := by
  cases i with
  | jmp _ | jsr _ | rts | rti | brk | bpl _ | bmi _ | bvc _ | bvs _ | bcc _ | bcs _ | bne _ | beq _ | invalid _ =>
    cases hi
  | asl o | lsr o | rol o | ror o =>
    cases h
    exact State.wentOn_finish (storeShift_pc o _ s) _
  | _ =>
    cases h
    rfl

/-- A branch goes on by its two bytes or to its target (R164). -/
theorem branchIf_pc {taken : Bool} {off : Byte} {s t : State} (h : branchIf taken off s = .next t) :
    s.wentOn t 2 ∨ t.pc = branchTarget off s := by
  rw [branchIf_next taken off s t h]
  cases taken with
  | false => exact .inl rfl
  | true => exact .inr rfl

/-- Settles O59: the sequential instructions, then the eight branches, which are one step shape. -/
theorem pcAdvancesUnlessSet : Obligations.PcAdvancesUnlessSet := by
  refine ⟨fun i s t hi h => (exec_wentOn hi h).pc_toNat, fun i off s t hi h => ?_⟩
  have hpc : s.wentOn t i.len ∨ t.pc = branchTarget off s := by
    fin_cases hi <;> exact branchIf_pc h
  exact hpc.imp_left State.wentOn.pc_toNat

end Sys2Proof.Machine
end

section
/-! PROOFS. Pulls, and the instructions that pass through the stack (R92, R93, R162, R163, R173, R174, R181 to R183). A
read after a push of a word or of a break is said once, for any address; the slots of one push are different addresses,
since SP moves by less than 256. The frames of registers, flags and memory are those of the tables. -/

namespace Sys2Proof.Machine

/-! ## Stack slots -/

theorem stackAddr_ne {p q : Byte} (h : p ≠ q) : stackAddr p ≠ stackAddr q := mt (stackAddr_inj p q).mp h

/-- An address above the stack page is no slot (R40). -/
theorem ne_stackAddr_of_lt {a : Word} (h : 0x01FF < a.toNat) (sp : Byte) : a ≠ stackAddr sp := by
  rintro rfl
  exact absurd (stackAddr_in_page sp).2 (Nat.not_le.mpr h)

/-- The end of a step writes no memory (R74). -/
@[simp] theorem State.memRead_finish (s : State) (len : Nat) (target : Option Word) (b : Word) :
    (s.finish len target).memRead b = s.memRead b := rfl

/-! ## Words on the stack -/

/-- After a word is pushed its high byte stands in the slot SP named (R93). -/
theorem State.memRead_pushWord_high (s : State) (w : Word) : (s.pushWord w).memRead (stackAddr s.sp) = hiByte w := by
  have hslot : stackAddr (s.push (hiByte w)).sp ≠ stackAddr s.sp := stackAddr_ne (by rw [State.push_sp]; bv_omega)
  rw [State.pushWord, State.memRead_push, if_neg hslot, State.memRead_push_same]

/-- And its low byte in the slot below (R93). -/
theorem State.memRead_pushWord_low (s : State) (w : Word) :
    (s.pushWord w).memRead (stackAddr (s.sp - 1)) = loByte w :=
  (s.push (hiByte w)).memRead_push_same (loByte w)

/-- The word pulled from a state with stack pointer `p`: low byte one slot up, high byte two (R93). -/
theorem State.pullWordValue_eq (s : State) :
    s.pullWordValue = joinBytes (s.memRead (stackAddr (s.sp + 2))) (s.memRead (stackAddr (s.sp + 1))) := by
  have hslot : s.sp + 1 + 1 = s.sp + 2 := by bv_omega
  rw [← hslot]
  rfl

theorem State.pushWord_sp_eq (s : State) (w : Word) : (s.pushWord w).sp = s.sp - 2 := by
  rw [State.pushWord_sp]
  bv_omega

theorem State.pulledWord_sp_eq (s : State) : s.pulledWord.sp = s.sp + 2 := by
  rw [State.pulledWord_sp]
  bv_omega

/-- Settles O30: the pull reads the slot pushed to, a word from its two slots, and SP goes up as far as it went down. -/
theorem pullInvertsPush : Obligations.PullInvertsPush := by
  refine ⟨fun s v => ?_, fun s w => ⟨?_, ?_⟩⟩
  · have hsp : (s.push v).sp + 1 = s.sp := by rw [State.push_sp]; bv_omega
    refine ⟨?_, hsp⟩
    rw [State.pullValue, hsp, State.memRead_push_same]
  · have hhigh : (s.pushWord w).sp + 2 = s.sp := by rw [State.pushWord_sp]; bv_omega
    have hlow : (s.pushWord w).sp + 1 = s.sp - 1 := by rw [State.pushWord_sp]; bv_omega
    rw [State.pullWordValue_eq, hhigh, hlow, State.memRead_pushWord_high, State.memRead_pushWord_low, joinBytes_bytes]
  · rw [State.pulledWord_sp_eq, State.pushWord_sp_eq]
    bv_omega

/-! ## Call and return -/

/-- What a call leaves (R162). -/
theorem exec_jsr (w : Word) (s : State) :
    exec (.jsr w) s = .next ((s.pushWord (s.pc + 2)).finish Mode.absolute.len (some w)) := rfl

/-- What a return leaves (R163). -/
theorem exec_rts (s : State) :
    exec .rts s = .next (s.pulledWord.finish Mode.implicit.len (some (s.pullWordValue + 1))) := rfl

/-- Settles O14: the two slots after the push of `pc + 2`, the frames from the tables, the decoder on the opcode. -/
theorem jsrPushesItsLastByteAddress : Obligations.JsrPushesItsLastByteAddress := by
  refine ⟨fun w s => ?_, fun _ _ => rfl⟩
  have hexec := exec_jsr w s
  refine ⟨_, hexec, rfl, ?_, ?_, ?_, exec_regsKept hexec, exec_flagsKept hexec, exec_memKept hexec⟩
  · rw [State.memRead_finish, State.memRead_pushWord_high]
  · rw [State.memRead_finish, State.memRead_pushWord_low]
  · rw [State.finish_sp, State.pushWord_sp_eq]

/-- Settles O15: the word pulled, SP two up, the frames from the tables, the decoder on the opcode. -/
theorem rtsReturnsPastThePulledWord : Obligations.RtsReturnsPastThePulledWord := by
  refine ⟨fun s => ?_, fun _ _ => rfl⟩
  have hexec := exec_rts s
  refine ⟨_, hexec, ?_, ?_, exec_regsKept hexec, exec_flagsKept hexec, exec_memKept hexec⟩
  · rw [State.finish_pc, Option.getD_some, State.pullWordValue_eq]
  · rw [State.finish_sp, State.pulledWord_sp_eq]

/-- An instruction answers one next state from one state. -/
theorem exec_next_unique {i : Instr} {s t u : State} (ht : exec i s = .next t) (hu : exec i s = .next u) : t = u :=
  Host.Outcome.next.inj (ht.symm.trans hu)

/-- Settles O16: the return pulls from the two slots of the call, which hold `pc + 2`, and goes one further. -/
theorem jsrThenRtsReturnsAfterTheCall : Obligations.JsrThenRtsReturnsAfterTheCall := by
  intro w s t u hcall hsp hhigh hlow
  obtain ⟨t', hcall', -, hhighPushed, hlowPushed, hspPushed, -⟩ := jsrPushesItsLastByteAddress.1 w s
  obtain rfl := exec_next_unique hcall' hcall
  obtain ⟨v, hreturn, hpc, hspPulled, -⟩ := rtsReturnsPastThePulledWord.1 u
  have hhighSlot : u.sp + 2 = s.sp := by rw [hsp, hspPushed]; bv_omega
  have hlowSlot : u.sp + 1 = s.sp - 1 := by rw [hsp, hspPushed]; bv_omega
  refine ⟨v, hreturn, ?_, hspPulled.trans hhighSlot⟩
  rw [hpc, hhighSlot, hlowSlot, hhigh, hlow, hhighPushed, hlowPushed, joinBytes_bytes]
  exact BitVec.add_assoc s.pc 2 1

/-! ## Break and return from it -/

/-- What a break leaves (R173). -/
theorem exec_brk (s : State) : exec .brk s = .next (s.enterBreak.finish Mode.implicit.len (some s.breakTarget)) := rfl

/-- What the return from a break leaves (R174). -/
theorem exec_rti (s : State) : exec .rti s = .next (s.leaveBreak.finish Mode.implicit.len (some s.leaveTarget)) := rfl

/-- A read after a break: P with B set in the third slot, elsewhere what the return word's push left (R173). -/
theorem State.memRead_enterBreak (s : State) (b : Word) : s.enterBreak.memRead b =
    if stackAddr (s.sp - 2) = b then writeFlag s.p .b true else (s.pushWord (s.pc + 2)).memRead b := by
  rw [← s.pushWord_sp_eq (s.pc + 2)]
  exact State.memRead_push ((s.pushWord s.breakReturn).setFlag .b true) (writeFlag s.p .b true) b

theorem State.memRead_enterBreak_status (s : State) :
    s.enterBreak.memRead (stackAddr (s.sp - 2)) = writeFlag s.p .b true := by
  rw [State.memRead_enterBreak, if_pos rfl]

theorem State.memRead_enterBreak_high (s : State) :
    s.enterBreak.memRead (stackAddr s.sp) = hiByte (s.pc + 2) := by
  have hslot : stackAddr (s.sp - 2) ≠ stackAddr s.sp := stackAddr_ne (by bv_omega)
  rw [State.memRead_enterBreak, if_neg hslot, State.memRead_pushWord_high]

theorem State.memRead_enterBreak_low (s : State) :
    s.enterBreak.memRead (stackAddr (s.sp - 1)) = loByte (s.pc + 2) := by
  have hslot : stackAddr (s.sp - 2) ≠ stackAddr (s.sp - 1) := stackAddr_ne (by bv_omega)
  rw [State.memRead_enterBreak, if_neg hslot, State.memRead_pushWord_low]

theorem State.enterBreak_sp_eq (s : State) : s.enterBreak.sp = s.sp - 3 := by
  rw [State.enterBreak_sp]
  bv_omega

theorem State.leaveBreak_sp_eq (s : State) : s.leaveBreak.sp = s.sp + 3 := by
  rw [State.leaveBreak_sp]
  bv_omega

/-- The vector lies outside the stack page, so the pushes before its read do not touch it (R39, R173). -/
theorem State.breakTarget_eq (s : State) : s.breakTarget = joinBytes (s.memRead 0xFFFF) (s.memRead 0xFFFE) := by
  have hkept : ∀ a : Word, 0x01FF < a.toNat → s.enterBreak.memRead a = s.memRead a := by
    intro a ha
    refine s.storedAt_enterBreak.read_other ?_
    simp [ne_stackAddr_of_lt ha]
  rw [← hkept 0xFFFF (by decide), ← hkept 0xFFFE (by decide)]
  rfl

/-- The return from a break pulls PC from the second and third slot above SP (R174). -/
theorem State.leaveTarget_eq (s : State) :
    s.leaveTarget = joinBytes (s.memRead (stackAddr (s.sp + 3))) (s.memRead (stackAddr (s.sp + 2))) := by
  have hhigh : s.pulled.sp + 2 = s.sp + 3 := by rw [State.pulled_sp]; bv_omega
  have hlow : s.pulled.sp + 1 = s.sp + 2 := by rw [State.pulled_sp]; bv_omega
  rw [State.leaveTarget, State.pullWordValue_eq, hhigh, hlow]
  rfl

/-- Settles O18: the three slots after the break's pushes, the vector, and the frames from the tables. -/
theorem brkEntersThroughItsVector : Obligations.BrkEntersThroughItsVector := by
  refine ⟨fun s => ?_, fun _ _ => rfl⟩
  have hexec := exec_brk s
  have hflag : ∀ f, readFlag (writeFlag s.p .b true) f = if f = .b then true else s.flag f := fun f =>
    (readFlag_writeFlag s.p .b f true).trans (if_congr eq_comm rfl rfl)
  refine ⟨_, hexec, ?_, ?_, ?_, ?_, ?_, ?_, exec_flagsKept hexec, ?_, exec_regsKept hexec, exec_memKept hexec⟩
  · rw [State.finish_pc, Option.getD_some, State.breakTarget_eq]
  · rw [State.memRead_finish, State.memRead_enterBreak_high]
  · rw [State.memRead_finish, State.memRead_enterBreak_low]
  · rw [State.memRead_finish, State.memRead_enterBreak_status]
    exact hflag
  · rw [State.flag, State.finish_p, State.enterBreak_p, readFlag_writeFlag, if_neg (by decide), readFlag_writeFlag_same]
  · rw [State.flag, State.finish_p, State.enterBreak_p, readFlag_writeFlag_same]
  · rw [State.finish_sp, State.enterBreak_sp_eq]

/-- Settles O19: P and PC from the three slots above SP, and the frames from the tables. -/
theorem rtiRestoresStatusAndPC : Obligations.RtiRestoresStatusAndPC := by
  refine ⟨fun s => ?_, fun _ _ => rfl⟩
  have hexec := exec_rti s
  refine ⟨_, hexec, ?_, ?_, ?_, exec_regsKept hexec, exec_memKept hexec⟩
  · rw [State.finish_p, State.leaveBreak_p, State.pullValue]
  · rw [State.finish_pc, Option.getD_some, State.leaveTarget_eq]
  · rw [State.finish_sp, State.leaveBreak_sp_eq]

/-- Settles O20: the return pulls from the three slots of the break, P with B set and then `pc + 2`. -/
theorem brkThenRtiReturns : Obligations.BrkThenRtiReturns := by
  intro s t u hbreak hsp hkept
  obtain ⟨t', hbreak', -, hhighPushed, hlowPushed, hstatusPushed, -, -, -, hspPushed, -⟩ :=
    brkEntersThroughItsVector.1 s
  obtain rfl := exec_next_unique hbreak' hbreak
  obtain ⟨v, hreturn, hp, hpc, hspPulled, -⟩ := rtiRestoresStatusAndPC.1 u
  have hhighSlot : u.sp + 3 = s.sp := by rw [hsp, hspPushed]; bv_omega
  have hlowSlot : u.sp + 2 = s.sp - 1 := by rw [hsp, hspPushed]; bv_omega
  have hstatusSlot : u.sp + 1 = s.sp - 2 := by rw [hsp, hspPushed]; bv_omega
  have hflag : ∀ f, v.flag f = if f = .b then true else s.flag f := by
    intro f
    rw [State.flag, hp, hstatusSlot, hkept _ (by simp), hstatusPushed]
  refine ⟨v, hreturn, ?_, hspPulled.trans hhighSlot, hflag .b, fun f hf => ?_⟩
  · rw [hpc, hhighSlot, hlowSlot, hkept _ (by simp), hkept _ (by simp), hhighPushed, hlowPushed, joinBytes_bytes]
  · rw [hflag, if_neg (List.ne_of_not_mem_cons hf)]

/-! ## Pushing and pulling P and A -/

theorem exec_plp (s : State) : exec .plp s = .next ((s.pulled.setP s.pullValue).finish Mode.implicit.len none) := rfl

theorem exec_pla (s : State) :
    exec .pla s = .next (((s.pulled.setA s.pullValue).setNZ s.pullValue).finish Mode.implicit.len none) := rfl

/-- Settles O22: the push of P, its pull with the frames from the tables, and the decoder on both opcodes. -/
theorem statusPushAndPullAreRaw : Obligations.StatusPushAndPullAreRaw := by
  refine ⟨fun s => implied_push_effect s.p s, fun s => ?_, fun _ _ => ⟨rfl, rfl⟩⟩
  have hexec := exec_plp s
  exact ⟨_, hexec, rfl, byte_add_one_toNat s.sp, exec_regsKept hexec, exec_memKept hexec, rfl⟩

/-- Settles O23: A takes the byte pulled, N and Z follow it, the frames are the tables'; with the opcode. -/
theorem plaPullsTheAccumulator : Obligations.PlaPullsTheAccumulator := by
  refine ⟨fun s => ?_, fun _ _ => rfl⟩
  have hexec := exec_pla s
  exact ⟨_, hexec, rfl, byte_add_one_toNat s.sp, State.showsNZ_setNZ _ s.pullValue, exec_flagsKept hexec,
    exec_regsKept hexec, exec_memKept hexec, rfl⟩

/-- Settles O24: the pull reads the slot `php` pushed P to. -/
theorem phpThenPlpRestoresStatus : Obligations.PhpThenPlpRestoresStatus := by
  intro s t u hpush hsp hkept
  obtain ⟨t', hpush', hpushed, -⟩ := statusPushAndPullAreRaw.1 s
  obtain rfl := exec_next_unique hpush' hpush
  have hslot : u.sp + 1 = s.sp := by
    cases hpush
    rw [hsp, State.finish_sp, State.push_sp]
    bv_omega
  refine ⟨_, exec_plp u, ?_, hslot⟩
  show u.memRead (stackAddr (u.sp + 1)) = s.p
  rw [hslot, hkept, hpushed]

end Sys2Proof.Machine
end

section
/-! PROOFS. The stored flags U, B, D and I have no effect (R20 to R23, R122). No operand, address, adder or branch reads
them, and a flag write passes every other flag write, so it can be made before an instruction or after it. -/

namespace Sys2Proof.Machine

/-! ## Flag writes that pass each other -/

/-- Writes of two different flags can be made in either order. -/
theorem writeFlag_comm {f g : Flag} (h : f ≠ g) (p : Byte) (on on' : Bool) :
    writeFlag (writeFlag p f on) g on' = writeFlag (writeFlag p g on') f on := by
  apply status_ext
  intro k
  simp only [readFlag_writeFlag]
  split
  · next hg => rw [if_neg (hg ▸ h)]
  · rfl

/-- What is done to the status word can be done before a write of the flag or after it. -/
def passesFlag (f : Flag) (w : Byte → Byte) : Prop :=
  ∀ (p : Byte) (on : Bool), w (writeFlag p f on) = writeFlag (w p) f on

theorem passesFlag.id (f : Flag) : passesFlag f (fun p => p) := fun _ _ => rfl

/-- One more write of another flag. -/
theorem passesFlag.writeFlag {f : Flag} {w : Byte → Byte} (h : passesFlag f w) {g : Flag} (hg : f ≠ g) (on : Bool) :
    passesFlag f (fun p => writeFlag (w p) g on) := by
  intro p on'
  simp only [h p on', writeFlag_comm hg]

section
variable {f : Flag}

theorem passesFlag_writeNZ (hf : f ∉ [Flag.n, .z]) (v : Byte) : passesFlag f (writeNZ · v) := by
  obtain ⟨hn, hz⟩ : f ≠ .n ∧ f ≠ .z := by simpa using hf
  exact ((passesFlag.id f).writeFlag hn _).writeFlag hz _

theorem passesFlag_writeSum (hf : f ∉ [Flag.n, .v, .z, .c]) (r : Sum) : passesFlag f (writeSum · r) := by
  obtain ⟨hn, hv, hz, hc⟩ : f ≠ .n ∧ f ≠ .v ∧ f ≠ .z ∧ f ≠ .c := by simpa using hf
  exact ((((passesFlag.id f).writeFlag hc _).writeFlag hv _).writeFlag hn _).writeFlag hz _

theorem passesFlag_writeCompare (hf : f ∉ [Flag.n, .z, .c]) (r m : Byte) : passesFlag f (writeCompare · r m) := by
  obtain ⟨hn, hz, hc⟩ : f ≠ .n ∧ f ≠ .z ∧ f ≠ .c := by simpa using hf
  exact (((passesFlag.id f).writeFlag hc _).writeFlag hz _).writeFlag hn _

theorem passesFlag_writeBitTest (hf : f ∉ [Flag.n, .v, .z]) (a m : Byte) : passesFlag f (writeBitTest · a m) := by
  obtain ⟨hn, hv, hz⟩ : f ≠ .n ∧ f ≠ .v ∧ f ≠ .z := by simpa using hf
  exact (((passesFlag.id f).writeFlag hz _).writeFlag hn _).writeFlag hv _

theorem passesFlag_writeShifted (hf : f ∉ [Flag.n, .z, .c]) (r : Shifted) : passesFlag f (writeShifted · r) := by
  obtain ⟨hn, hz, hc⟩ : f ≠ .n ∧ f ≠ .z ∧ f ≠ .c := by simpa using hf
  exact (((passesFlag.id f).writeFlag hc _).writeFlag hn _).writeFlag hz _

end

/-! ## Operands and flags read -/

@[simp] theorem effectiveAddr_setFlag (m : MemOperand) (s : State) (f : Flag) (on : Bool) :
    effectiveAddr m (s.setFlag f on) = effectiveAddr m s := by
  cases m <;> rfl

@[simp] theorem readValue_setFlag (o : ReadOperand) (s : State) (f : Flag) (on : Bool) :
    readValue o (s.setFlag f on) = readValue o s := by
  cases o with
  | imm v => rfl
  | mem m => exact congrArg s.memRead (effectiveAddr_setFlag m s f on)

@[simp] theorem shiftValue_setFlag (o : ShiftOperand) (s : State) (f : Flag) (on : Bool) :
    shiftValue o (s.setFlag f on) = shiftValue o s := by
  cases o with
  | acc => rfl
  | mem m => exact congrArg s.memRead (effectiveAddr_setFlag m s f on)

@[simp] theorem jumpTarget_setFlag (t : JumpOperand) (s : State) (f : Flag) (on : Bool) :
    jumpTarget t (s.setFlag f on) = jumpTarget t s := by
  cases t <;> rfl

theorem State.flag_setFlag_other {f g : Flag} (h : f ≠ g) (s : State) (on : Bool) :
    (s.setFlag f on).flag g = s.flag g :=
  (readFlag_writeFlag s.p f g on).trans (if_neg h)

/-! ## The shapes of step -/

section
variable {f : Flag} {on : Bool}

/-- A write of P that passes the flag, in any state. -/
theorem State.setFlag_setP {w : Byte → Byte} (hw : passesFlag f w) (u : State) (on : Bool) :
    (u.setP (w u.p)).setFlag f on = u.setP (w (Machine.writeFlag u.p f on)) :=
  congrArg u.setP (hw u.p on).symm

theorem withOperand_setFlag {o : ReadOperand} {s : State} {g : Byte → State → State}
    (hg : ∀ m, (g m s).setFlag f on = g m (s.setFlag f on)) :
    withOperand o (s.setFlag f on) g = .next (((g (readValue o s) s).finish o.mode.len none).setFlag f on) := by
  simp only [withOperand, readValue_setFlag, ← hg]
  rfl

theorem implied_setFlag {u u' : State} (h : u.setFlag f on = u') :
    implied u' = .next ((u.finish Mode.implicit.len none).setFlag f on) := by
  rw [← h]
  rfl

theorem storeByte_setFlag (m : MemOperand) (v : Byte) (s : State) : storeByte m v (s.setFlag f on) =
    .next (((s.memWrite (effectiveAddr m s) v).finish m.mode.len none).setFlag f on) := by
  simp only [storeByte, effectiveAddr_setFlag]
  rfl

theorem modifyStep_setFlag (hf : f ∉ [Flag.n, .z]) (m : MemOperand) (v : Byte) (s : State) :
    modifyStep m v (s.setFlag f on) =
      .next ((((s.memWrite (effectiveAddr m s) v).setNZ v).finish m.mode.len none).setFlag f on) := by
  have hnz := (s.memWrite (effectiveAddr m s) v).setFlag_setP (passesFlag_writeNZ hf v) on
  simp only [modifyStep, effectiveAddr_setFlag]
  exact congrArg (fun u => Host.Outcome.next (u.finish m.mode.len none)) hnz.symm

theorem storeShift_setFlag (o : ShiftOperand) (v : Byte) (s : State) :
    storeShift o v (s.setFlag f on) = (storeShift o v s).setFlag f on := by
  cases o with
  | acc => rfl
  | mem m => exact congrArg (fun a => (s.memWrite a v).setFlag f on) (effectiveAddr_setFlag m s f on)

theorem shiftStep_setFlag (hf : f ∉ [Flag.n, .z, .c]) (o : ShiftOperand) (r : Shifted) (s : State) :
    shiftStep o r (s.setFlag f on) =
      .next ((((storeShift o r.value s).setP (writeShifted s.p r)).finish o.mode.len none).setFlag f on) := by
  have hp := passesFlag_writeShifted hf r s.p on
  simp only [shiftStep, storeShift_setFlag]
  exact congrArg (fun p => Host.Outcome.next (((storeShift o r.value s).setP p).finish o.mode.len none)) hp

end

theorem State.pushWord_setFlag (s : State) (w : Word) (f : Flag) (on : Bool) :
    (s.setFlag f on).pushWord w = (s.pushWord w).setFlag f on := rfl

theorem branchIf_setFlag (taken : Bool) (off : Byte) (s : State) (f : Flag) (on : Bool) :
    branchIf taken off (s.setFlag f on) =
      .next ((s.finish Mode.relative.len (if taken then some (branchTarget off s) else none)).setFlag f on) := rfl

/-- A write of a stored flag can be made before an instruction or after it, one case per shape of step: what the
instruction writes of P passes the flag, because its row of R25's table has not got it. -/
theorem exec_setFlag {f : Flag} {i : Instr} {s t : State} (on : Bool) (hf : f ∈ [Flag.u, .b, .d, .i])
    (hw : f ∉ flagsWritten i) (hphp : i ≠ .php) (hbrk : i ≠ .brk) (h : exec i s = .next t) :
    exec i (s.setFlag f on) = .next (t.setFlag f on) := by
  have hread : ∀ g, g ∈ [Flag.n, .v, .z, .c] → (s.setFlag f on).flag g = s.flag g := by
    intro g hg
    have hne : f ≠ g := by
      rintro rfl
      fin_cases hf <;> exact absurd hg (by decide)
    exact s.flag_setFlag_other hne on
  have hc := hread .c (by decide)
  cases i with
  | lda _ | ldx _ | ldy _ | and _ | ora _ | eor _ =>
    cases h
    simp only [exec, execLda, execLdx, execLdy, execAnd, execOra, execEor, logicStep]
    refine withOperand_setFlag fun m => ?_
    exact State.setFlag_setP (passesFlag_writeNZ hw _) _ on
  | adc _ | sbc _ =>
    cases h
    simp only [exec, execAdc, execSbc]
    refine withOperand_setFlag fun m => ?_
    rw [hc]
    exact State.setFlag_setP (passesFlag_writeSum hw _) _ on
  | cmp _ | cpx _ | cpy _ =>
    cases h
    simp only [exec, execCmp, execCpx, execCpy, compareStep]
    refine withOperand_setFlag fun m => ?_
    exact State.setFlag_setP (passesFlag_writeCompare hw _ m) s on
  | bit _ =>
    cases h
    simp only [exec, execBit]
    refine withOperand_setFlag fun m => ?_
    exact State.setFlag_setP (passesFlag_writeBitTest hw s.a m) s on
  | sta m | stx m | sty m =>
    cases h
    exact storeByte_setFlag m _ s
  | inc m | dec m =>
    cases h
    simp only [exec, execInc, execDec, effectiveAddr_setFlag]
    exact modifyStep_setFlag hw m _ s
  | asl o | lsr o | rol o | ror o =>
    cases h
    simp only [exec, execAsl, execLsr, execRol, execRor, shiftValue_setFlag, hc]
    exact shiftStep_setFlag hw o _ s
  | tax | tay | txa | tya | tsx | inx | iny | dex | dey | pla =>
    cases h
    refine implied_setFlag ?_
    exact State.setFlag_setP (passesFlag_writeNZ hw _) _ on
  | clc | sec | cli | sei | cld | sed | clv =>
    cases h
    refine implied_setFlag ?_
    exact State.setFlag_setP ((passesFlag.id f).writeFlag (List.ne_of_not_mem_cons hw) _) s on
  | txs | pha | nop =>
    cases h
    exact implied_setFlag rfl
  | bpl off | bmi off | bvc off | bvs off | bcc off | bcs off | bne off | beq off =>
    cases h
    simp only [exec, execBpl, execBmi, execBvc, execBvs, execBcc, execBcs, execBne, execBeq, hc, hread .n (by decide),
      hread .v (by decide), hread .z (by decide)]
    exact branchIf_setFlag _ off s f on
  | jmp o =>
    cases h
    simp only [exec, execJmp, jumpTarget_setFlag]
    rfl
  | jsr w =>
    cases h
    rw [exec_jsr, State.pushWord_setFlag]
    rfl
  | rts | invalid _ =>
    cases h
    rfl
  | plp | rti => exact absurd (by cases f <;> decide) hw
  | php => exact absurd rfl hphp
  | brk => exact absurd rfl hbrk

/-- Settles O55: the flag write passes the instruction. -/
theorem storedFlagsHaveNoEffect : Obligations.StoredFlagsHaveNoEffect :=
  fun _ _ _ _ on => exec_setFlag on

end Sys2Proof.Machine
end

section
/-! PROOFS. The transactions of a step (R42, R45). Reads of a state fit its own memory and leave it, so of any list only
the writes are left to follow; they are the stores of the meaning. -/

namespace Sys2Proof.Machine

/-! ## Reads -/

/-- Reads of a state fit its memory: what follows them is replayed on it. -/
theorem replay_readsOf_append (s : State) (addrs : List Word) (rest : List Transaction) :
    replay s.mem (readsOf s addrs ++ rest) = replay s.mem rest := by
  induction addrs with
  | nil => rfl
  | cons a addrs ih => exact (if_pos rfl).trans ih

theorem replay_readsOf (s : State) (addrs : List Word) : replay s.mem (readsOf s addrs) = some s.mem := by
  have h := replay_readsOf_append s addrs []
  rwa [List.append_nil] at h

/-- The resolver only reads. -/
theorem replay_resolverReads_append (m : MemOperand) (s : State) (rest : List Transaction) :
    replay s.mem (resolverReads m s ++ rest) = replay s.mem rest := by
  cases m <;> exact replay_readsOf_append s _ rest

theorem replay_operandReads (o : ReadOperand) (s : State) : replay s.mem (operandReads o s) = some s.mem := by
  cases o with
  | imm v => exact replay_readsOf s _
  | mem m => rw [operandReads, replay_resolverReads_append, replay_readsOf]

theorem replay_jumpReads (t : JumpOperand) (s : State) : replay s.mem (jumpReads t s) = some s.mem := by
  cases t <;> exact replay_readsOf s _

/-! ## Writes -/

/-- A store: its one write (R104). -/
theorem replay_storeAccess (m : MemOperand) (v : Byte) (s : State) :
    replay s.mem (storeAccess m v s) = some (s.mem.write (effectiveAddr m s) v) := by
  rw [storeAccess, replay_resolverReads_append]
  rfl

/-- A read-modify-write: its one write (R42). -/
theorem replay_modifyAccess (m : MemOperand) (r : Byte) (s : State) :
    replay s.mem (modifyAccess m r s) = some (s.mem.write (effectiveAddr m s) r) := by
  rw [modifyAccess, List.append_assoc, replay_resolverReads_append, replay_readsOf_append]
  rfl

/-- A shift: the memory its store of the result leaves (R140). -/
theorem replay_shiftAccess (o : ShiftOperand) (r : Shifted) (s : State) :
    replay s.mem (shiftAccess o r s) = some (storeShift o r.value s).mem := by
  cases o with
  | acc => rfl
  | mem m => exact replay_modifyAccess m r.value s

/-- A break: three writes, then the vector read from the memory they leave (R173). -/
theorem replay_brk (s : State) : replay s.mem (bodyTransactions .brk s) = some s.enterBreak.mem := by
  have hslot : s.sp - 1 - 1 = s.sp - 2 := by bv_omega
  have hvector := replay_readsOf s.enterBreak [Config.brkVector, Config.brkVector + 1]
  rw [State.enterBreak_mem, hslot] at hvector ⊢
  exact hvector

/-! ## Every instruction -/

/-- The transactions after the opcode read leave the memory the meaning leaves, one case per shape of list. -/
theorem replay_bodyTransactions {i : Instr} {s t : State} (h : exec i s = .next t) :
    replay s.mem (bodyTransactions i s) = some t.mem := by
  cases i with
  | lda o | ldx o | ldy o | adc o | sbc o | and o | ora o | eor o | cmp o | cpx o | cpy o =>
    cases h
    exact replay_operandReads o s
  | bit m =>
    cases h
    exact replay_operandReads (.mem m) s
  | sta m | stx m | sty m =>
    cases h
    exact replay_storeAccess m _ s
  | inc m | dec m =>
    cases h
    exact replay_modifyAccess m _ s
  | asl o | lsr o | rol o | ror o =>
    cases h
    exact replay_shiftAccess o _ s
  | jmp o =>
    cases h
    exact replay_jumpReads o s
  | bpl _ | bmi _ | bvc _ | bvs _ | bcc _ | bcs _ | bne _ | beq _ | pla | plp | rts =>
    cases h
    exact replay_readsOf s _
  | rti =>
    cases h
    rw [State.finish_mem, State.leaveBreak_mem]
    exact replay_readsOf s _
  | jsr w =>
    cases h
    rw [State.finish_mem, State.pushWord_mem]
    exact replay_readsOf_append s _ _
  | brk =>
    cases h
    exact replay_brk s
  | pha | php | tax | tay | txa | tya | tsx | txs | inx | iny | dex | dey | clc | sec | cli | sei | cld | sed | clv
  | nop | invalid _ =>
    cases h
    rfl

/-- Settles O60: the opcode read fits and leaves the memory, and the rest is the fetched instruction's list. -/
theorem transactionsReplayTheStep : Obligations.TransactionsReplayTheStep := by
  intro s t hstep
  refine ⟨?_, rfl⟩
  rw [stepTransactions, replay_readsOf_append]
  exact replay_bodyTransactions hstep

end Sys2Proof.Machine
end

section
/-! PROOFS. The text form (R60 to R66). What is written is read back part by part: a digit, a byte, a word, an offset,
an operand, and last the pair of mnemonic and operand. No two modes have one shape of text. -/

namespace Sys2Proof
open Sys2Proof.Machine

/-! ## Digits and offsets -/

/-- A search by a text that tells the candidates apart finds the one the text was written from. -/
theorem find?_text_eq_some {α β : Type} [BEq β] [LawfulBEq β] {text : α → β} (hinj : Function.Injective text)
    {l : List α} {a : α} (ha : a ∈ l) : l.find? (fun b => text b == text a) = some a := by
  obtain ⟨b, hb⟩ : ∃ b, l.find? (fun b => text b == text a) = some b :=
    Option.isSome_iff_exists.mp (List.find?_isSome.mpr ⟨a, ha, beq_self_eq_true _⟩)
  have htext : text b = text a := eq_of_beq (List.find?_some hb :)
  rw [hb, hinj htext]

@[simp] theorem hexValue_hexDigit : ∀ d : BitVec 4, hexValue (hexDigit d) = some d := by decide

/-- The decimal number some digits show. -/
def magnitudeValue (t : List Char) : Nat := t.foldl (fun n c => 10 * n + (c.toNat - 48)) 0

/-- The offset a signed decimal number shows. -/
def decimalValue : List Char → Byte
  | '-' :: t => BitVec.ofNat 8 (256 - magnitudeValue t)
  | t => BitVec.ofNat 8 (magnitudeValue t)

/-- The offset can be read off its text; checked over the 256 offsets. -/
theorem decimalValue_decimalText : ∀ off : Byte, decimalValue (decimalText off) = off := by decide

theorem mem_allBytes (b : Byte) : b ∈ (List.range 256).map (BitVec.ofNat 8) :=
  List.mem_map.mpr ⟨b.toNat, List.mem_range.mpr b.isLt, BitVec.ofNat_toNat 8 b⟩

theorem parseDecimal_decimalText (off : Byte) : parseDecimal (decimalText off) = some off :=
  find?_text_eq_some (Function.LeftInverse.injective decimalValue_decimalText) (mem_allBytes off)

/-! ## Bytes and words -/

/-- The two halves of a byte joined again. -/
theorem digits_append : ∀ b : Byte, b.extractLsb' 4 4 ++ b.extractLsb' 0 4 = b := by decide

/-- A byte is read back from the two digits it is written as. -/
theorem hexByte_parses (b : Byte) : ∃ c1 c0, hexByte b = [c1, c0] ∧ parseByte c1 c0 = some b := by
  refine ⟨_, _, rfl, ?_⟩
  simp [parseByte, digits_append]

/-- A word is read back from the four digits it is written as. -/
theorem hexWord_parses (w : Word) : ∃ c3 c2 c1 c0, hexWord w = [c3, c2, c1, c0] ∧ parseWord c3 c2 c1 c0 = some w := by
  obtain ⟨c3, c2, hhigh, hparseHigh⟩ := hexByte_parses (hiByte w)
  obtain ⟨c1, c0, hlow, hparseLow⟩ := hexByte_parses (loByte w)
  refine ⟨c3, c2, c1, c0, ?_, ?_⟩
  · rw [hexWord, hhigh, hlow]
    rfl
  · simp [parseWord, hparseHigh, hparseLow]

/-! ## Operands -/

/-- A memory operand is read back: punctuation and the number of digits tell the modes apart (R62). -/
theorem parseOperand_memText (m : MemOperand) : parseOperand m.text = some (.mem m) := by
  cases m with
  | zp b | zpx b | zpy b | izx b | izy b =>
    obtain ⟨c1, c0, htext, hparse⟩ := hexByte_parses b
    simp [MemOperand.text, parseOperand, htext, hparse]
  | abs w | abx w | aby w =>
    obtain ⟨c3, c2, c1, c0, htext, hparse⟩ := hexWord_parses w
    simp [MemOperand.text, parseOperand, htext, hparse]

theorem parseOperand_immText (v : Byte) : parseOperand (ReadOperand.imm v).text = some (.imm v) := by
  obtain ⟨c1, c0, htext, hparse⟩ := hexByte_parses v
  simp [ReadOperand.text, parseOperand, htext, hparse]

theorem parseOperand_indText (w : Word) : parseOperand (JumpOperand.ind w).text = some (.ind w) := by
  obtain ⟨c3, c2, c1, c0, htext, hparse⟩ := hexWord_parses w
  simp [JumpOperand.text, parseOperand, htext, hparse]

/-- A text without punctuation at its start is an offset (R65). -/
theorem parseOperand_of_head {c : Char} {t : List Char} (hc : c ∉ ['#', '$', '(']) :
    parseOperand (c :: t) = (parseDecimal (c :: t)).map .rel := by
  unfold parseOperand
  split <;> simp_all

/-- An offset starts with `-` or a digit; checked over the 256 offsets. -/
theorem decimalText_head : ∀ off : Byte, (decimalText off).head? ∉ [none, some '#', some '$', some '('] := by decide

theorem parseOperand_decimalText (off : Byte) : parseOperand (decimalText off) = some (.rel off) := by
  have hparse := parseDecimal_decimalText off
  have hhead := decimalText_head off
  cases htext : decimalText off with
  | nil => exact absurd (by simp [htext]) hhead
  | cons c t =>
    have hc : c ∉ ['#', '$', '('] := by simpa [htext] using hhead
    rw [parseOperand_of_head hc, ← htext, hparse]
    rfl

/-! ## Mnemonic and operand -/

/-- A mnemonic is three letters (R60). -/
theorem mnemonicText_letters {i : Instr} (hi : isInvalid i = false) :
    ∃ l2 l1 l0, i.mnemonicText = [l2, l1, l0] := by
  cases i with
  | invalid op => cases hi
  | _ => exact ⟨_, _, _, rfl⟩

/-- The operand text of an instruction is read as an operand that names it beside its mnemonic, one case per shape of
operand (R56, R62). -/
theorem operandText_parses {i : Instr} (hi : isInvalid i = false) :
    ∃ o, parseOperand i.operandText = some o ∧ pairInstr i.mnemonicText o = some i := by
  cases i with
  | adc o | and o | cmp o | cpx o | cpy o | eor o | lda o | ldx o | ldy o | ora o | sbc o =>
    cases o with
    | imm v => exact ⟨_, parseOperand_immText v, rfl⟩
    | mem m => exact ⟨_, parseOperand_memText m, rfl⟩
  | asl o | lsr o | rol o | ror o =>
    cases o with
    | acc => exact ⟨.implicit, rfl, rfl⟩
    | mem m => exact ⟨_, parseOperand_memText m, rfl⟩
  | bit m | dec m | inc m | sta m | stx m | sty m => exact ⟨_, parseOperand_memText m, rfl⟩
  | jmp t =>
    cases t with
    | abs w => exact ⟨_, parseOperand_memText (.abs w), rfl⟩
    | ind w => exact ⟨_, parseOperand_indText w, rfl⟩
  | jsr w => exact ⟨_, parseOperand_memText (.abs w), rfl⟩
  | bcc off | bcs off | beq off | bmi off | bne off | bpl off | bvc off | bvs off =>
    exact ⟨_, parseOperand_decimalText off, rfl⟩
  | invalid op => cases hi
  | _ => exact ⟨.implicit, rfl, rfl⟩

/-- Reading a text is reading its mnemonic and its operand, which is Implicit where there is none (R60). -/
theorem parseText_text {i : Instr} {o : TextOperand} (hi : isInvalid i = false)
    (ho : parseOperand i.operandText = some o) : parseText i.text = checkedInstr i.mnemonicText o := by
  obtain ⟨l2, l1, l0, hletters⟩ := mnemonicText_letters hi
  cases htext : i.operandText with
  | nil =>
    obtain rfl : .implicit = o := Option.some.inj (htext ▸ ho : parseOperand [] = some o)
    simp [Instr.text, htext, hletters, parseText]
  | cons c rest =>
    rw [htext] at ho
    simp [Instr.text, htext, hletters, parseText, ho]

theorem checkedInstr_of_pairInstr {m : List Char} {o : TextOperand} {i : Instr} (hpair : pairInstr m o = some i)
    (hwf : i.wellFormed = true) : checkedInstr m o = some i := by
  simp [checkedInstr, hpair, hwf]

/-- Settles O42: the operand is read back, and with the mnemonic it names the instruction, which exists. -/
theorem textDeterminesTheInstruction : Obligations.TextDeterminesTheInstruction := by
  intro i hwf hi
  obtain ⟨o, ho, hpair⟩ := operandText_parses hi
  rw [parseText_text hi ho, checkedInstr_of_pairInstr hpair hwf]

end Sys2Proof
end
